-- ==== Sys2Proof/Word.lean ====
section
/-! DEFINITION. The word types of the core and the smallest helpers over them: the 8-bit datum and the 16-bit
address of spec/00_scope.md rules R6 and R12. -/

namespace Sys2Proof

/-- A bus datum, a general register, an opcode (spec/00_scope.md R6). -/
abbrev Byte := BitVec 8

/-- A bus address, `pc`, `sp` or a register pair (spec/00_scope.md R6). -/
abbrev Word := BitVec 16

end Sys2Proof
end

