-- ==== Sys2Proof/Config.lean ====
section
/-! DEFINITION. What one build of the core fixes: the two parameters of spec/00_scope.md R8 and R9, and the external bus as a
free value (spec/00_scope.md R7, spec/20_memory.md R51). -/

namespace Sys2Proof

/-- The parameter SUBTRACT_MODE of spec/00_scope.md R8. -/
inductive SubtractMode where
  /-- The default: SUB and SBC decode and then raise Unimplemented. -/
  | unimplemented
  /-- SUB and SBC execute by spec/42_sub_sbc.md. -/
  | symmetric
deriving DecidableEq, Repr

/-- The parameter UNIMPLEMENTED_POLICY of spec/00_scope.md R9. -/
inductive UnimplementedPolicy where
  /-- The default: a distinguishable fatal outcome that halts the run. -/
  | fault
  /-- All state is left unchanged and the current pc is returned. -/
  | placeholder
deriving DecidableEq, Repr

/-- The parameters of one build (spec/00_scope.md R10: the core has no other, beside the bus).
A value of this type stands in every state, and no step and no host action changes it
(notes/assumptions/2.md, DESIGN CHOICE). -/
structure Params where
  subtractMode : SubtractMode
  unimplementedPolicy : UnimplementedPolicy
deriving DecidableEq, Repr

/-- The default build of spec/00_scope.md R8 and R9. -/
def Params.default : Params :=
  { subtractMode := .unimplemented, unimplementedPolicy := .fault }

/-- The oracle half of the parameter BUS (spec/00_scope.md R7, spec/20_memory.md R51): what the bus answers at an address that
the platform has not declared to be plain memory. It is a free value: it has no body, and it is applied to the number of bus accesses the
core has made so far, so two reads of one address need not agree (notes/assumptions/1.md). -/
opaque Config.busAnswer (access : Nat) (address : Word) : Byte

end Sys2Proof
end

