-- ==== Sys2Proof/Syntax.lean ====
section
/-! DEFINITION. The instructions as syntax: one constructor of `Instr` per row of spec/opcode_table.json, the operation and the operand target that
make up a decoded instruction (spec/30_encoding.md R72), and an instruction as a program spells it, with its immediate byte. -/

namespace Sys2Proof

/-- The seven general registers (spec/10_state.md R20). -/
inductive Reg8 where
  | a | b | c | d | e | h | l
deriving DecidableEq, Repr

/-- The four operations in scope (spec/00_scope.md R2, spec/30_encoding.md R72). -/
inductive Op where
  | add | adc | sub | sbc
deriving DecidableEq, Repr

/-- The two operations that a build may leave without execution logic (spec/60_exceptions.md R191, R192). -/
inductive SubOp where
  | sub | sbc
deriving DecidableEq, Repr

/-- The nine operand targets, the source's ArithmeticTarget (spec/00_scope.md R17, spec/30_encoding.md R72). -/
inductive Target where
  /-- A named register (spec/40_execution_cycle.md R93). -/
  | reg (r : Reg8)
  /-- The byte at the bus address in pair hl (R94). -/
  | hl
  /-- The immediate byte after the opcode (R95). -/
  | d8
deriving DecidableEq, Repr

/-- The decoded instructions: one constructor per row of the opcode table (spec/30_encoding.md R74). A decoded instruction
carries no operand value: operand values are fetched later, during execution (R75). -/
inductive Instr where
  /-- `ADD A,B`, opcode 0x80 (R120). -/
  | addAB
  /-- `ADD A,C`, opcode 0x81 (R121). -/
  | addAC
  /-- `ADD A,D`, opcode 0x82 (R122). -/
  | addAD
  /-- `ADD A,E`, opcode 0x83 (R123). -/
  | addAE
  /-- `ADD A,H`, opcode 0x84 (R124). -/
  | addAH
  /-- `ADD A,L`, opcode 0x85 (R125). -/
  | addAL
  /-- `ADD A,(HL)`, opcode 0x86 (R126). -/
  | addAIndHL
  /-- `ADD A,A`, opcode 0x87 (R127). -/
  | addAA
  /-- `ADD A,n8`, opcode 0xC6 (R128). -/
  | addAN8
  /-- `ADC A,B`, opcode 0x88 (R129). -/
  | adcAB
  /-- `ADC A,C`, opcode 0x89 (R130). -/
  | adcAC
  /-- `ADC A,D`, opcode 0x8A (R131). -/
  | adcAD
  /-- `ADC A,E`, opcode 0x8B (R132). -/
  | adcAE
  /-- `ADC A,H`, opcode 0x8C (R133). -/
  | adcAH
  /-- `ADC A,L`, opcode 0x8D (R134). -/
  | adcAL
  /-- `ADC A,(HL)`, opcode 0x8E (R135). -/
  | adcAIndHL
  /-- `ADC A,A`, opcode 0x8F (R136). -/
  | adcAA
  /-- `ADC A,n8`, opcode 0xCE (R137). -/
  | adcAN8
  /-- `SUB A,B`, opcode 0x90 (R160). -/
  | subAB
  /-- `SUB A,C`, opcode 0x91 (R161). -/
  | subAC
  /-- `SUB A,D`, opcode 0x92 (R162). -/
  | subAD
  /-- `SUB A,E`, opcode 0x93 (R163). -/
  | subAE
  /-- `SUB A,H`, opcode 0x94 (R164). -/
  | subAH
  /-- `SUB A,L`, opcode 0x95 (R165). -/
  | subAL
  /-- `SUB A,(HL)`, opcode 0x96 (R166). -/
  | subAIndHL
  /-- `SUB A,A`, opcode 0x97 (R167). -/
  | subAA
  /-- `SUB A,n8`, opcode 0xD6 (R168). -/
  | subAN8
  /-- `SBC A,B`, opcode 0x98 (R169). -/
  | sbcAB
  /-- `SBC A,C`, opcode 0x99 (R170). -/
  | sbcAC
  /-- `SBC A,D`, opcode 0x9A (R171). -/
  | sbcAD
  /-- `SBC A,E`, opcode 0x9B (R172). -/
  | sbcAE
  /-- `SBC A,H`, opcode 0x9C (R173). -/
  | sbcAH
  /-- `SBC A,L`, opcode 0x9D (R174). -/
  | sbcAL
  /-- `SBC A,(HL)`, opcode 0x9E (R175). -/
  | sbcAIndHL
  /-- `SBC A,A`, opcode 0x9F (R176). -/
  | sbcAA
  /-- `SBC A,n8`, opcode 0xDE (R177). -/
  | sbcAN8
deriving DecidableEq, Repr

/-- An instruction as a program spells it (spec/30_encoding.md R73, R80): the decoded instruction, and the immediate byte
where the target is D8. -/
structure AsmInstr where
  instr : Instr
  imm : Option Byte
deriving DecidableEq, Repr

end Sys2Proof
end

