-- ==== Sys2Proof/WellFormed.lean ====
section
/-! DEFINITION. Which spelled instructions are well formed: the one thing the encoding asks of a term beyond its type is that an immediate
byte is there exactly when the target is D8 (spec/30_encoding.md R70, R73). -/

namespace Sys2Proof

/-- The instructions whose second byte is an immediate operand, written out per row (spec/30_encoding.md R70, R74). -/
def Instr.takesImmediate : Instr → Bool
  | .addAN8 | .adcAN8 | .subAN8 | .sbcAN8 => true
  | .addAB | .addAC | .addAD | .addAE | .addAH | .addAL | .addAIndHL | .addAA
  | .adcAB | .adcAC | .adcAD | .adcAE | .adcAH | .adcAL | .adcAIndHL | .adcAA
  | .subAB | .subAC | .subAD | .subAE | .subAH | .subAL | .subAIndHL | .subAA
  | .sbcAB | .sbcAC | .sbcAD | .sbcAE | .sbcAH | .sbcAL | .sbcAIndHL | .sbcAA => false

/-- The check of `WellFormed`: an immediate byte is present exactly in the two-byte instructions. -/
def AsmInstr.wellFormed (x : AsmInstr) : Bool :=
  x.imm.isSome == x.instr.takesImmediate

/-- A spelled instruction that the encoding can express (spec/30_encoding.md R70). -/
abbrev AsmInstr.WellFormed (x : AsmInstr) : Prop :=
  x.wellFormed = true

end Sys2Proof
end

