-- ==== Sys2Proof/Decode.lean ====
section
/-! DEFINITION. The decoder and the encoder. The decoder is the table of spec/30_encoding.md R74, total on every byte. The encoder is written from the
formats F1 and F2 and the field codes of R71 to R73, not from that table, so their agreement says that the table and the fields are the same. -/

namespace Sys2Proof

/-- The ADD rows of the table of R74. -/
def addRows : List (Byte × Instr) :=
  [(0x80#8, .addAB), (0x81#8, .addAC), (0x82#8, .addAD), (0x83#8, .addAE),
   (0x84#8, .addAH), (0x85#8, .addAL), (0x86#8, .addAIndHL), (0x87#8, .addAA),
   (0xC6#8, .addAN8)]

/-- The ADC rows of the table of R74. -/
def adcRows : List (Byte × Instr) :=
  [(0x88#8, .adcAB), (0x89#8, .adcAC), (0x8A#8, .adcAD), (0x8B#8, .adcAE),
   (0x8C#8, .adcAH), (0x8D#8, .adcAL), (0x8E#8, .adcAIndHL), (0x8F#8, .adcAA),
   (0xCE#8, .adcAN8)]

/-- The SUB rows of the table of R74. -/
def subRows : List (Byte × Instr) :=
  [(0x90#8, .subAB), (0x91#8, .subAC), (0x92#8, .subAD), (0x93#8, .subAE),
   (0x94#8, .subAH), (0x95#8, .subAL), (0x96#8, .subAIndHL), (0x97#8, .subAA),
   (0xD6#8, .subAN8)]

/-- The SBC rows of the table of R74. -/
def sbcRows : List (Byte × Instr) :=
  [(0x98#8, .sbcAB), (0x99#8, .sbcAC), (0x9A#8, .sbcAD), (0x9B#8, .sbcAE),
   (0x9C#8, .sbcAH), (0x9D#8, .sbcAL), (0x9E#8, .sbcAIndHL), (0x9F#8, .sbcAA),
   (0xDE#8, .sbcAN8)]

/-- The table of spec/30_encoding.md R74: 36 rows. -/
def opcodeTable : List (Byte × Instr) :=
  addRows ++ adcRows ++ subRows ++ sbcRows

/-- The instruction decoder (spec/30_encoding.md R74 to R78): a pure function of the opcode byte alone. `none` is the explicit
"unrecognized" signal, which every byte outside the table gets, the prefix 0xCB among them. -/
def decode (opcode : Byte) : Option Instr :=
  opcodeTable.lookup opcode

/-- Why a byte sequence is not an instruction. -/
inductive DecodeError where
  /-- The first byte has no row in the table (R77, R78). -/
  | unrecognised (opcode : Byte)
  /-- There is no first byte. -/
  | noOpcode
  /-- The opcode is that of a two-byte instruction and the sequence ends after it (R70). -/
  | noImmediate (instr : Instr)
deriving DecidableEq, Repr

/-- Reads one instruction off a sequence of bytes laid out at ascending addresses (spec/20_memory.md R54) and answers it with the
bytes that follow, or rejects the sequence by name. -/
def decodeStream : List Byte → Except DecodeError (AsmInstr × List Byte)
  | [] => .error .noOpcode
  | opcode :: rest =>
    match decode opcode with
    | none => .error (.unrecognised opcode)
    | some i =>
      match i.takesImmediate, rest with
      | false, _ => .ok (⟨i, none⟩, rest)
      | true, imm :: rest' => .ok (⟨i, some imm⟩, rest')
      | true, [] => .error (.noImmediate i)

/-- The operation of a decoded instruction, per row of R74. -/
def Instr.op : Instr → Op
  | .addAB | .addAC | .addAD | .addAE | .addAH | .addAL | .addAIndHL | .addAA | .addAN8 => .add
  | .adcAB | .adcAC | .adcAD | .adcAE | .adcAH | .adcAL | .adcAIndHL | .adcAA | .adcAN8 => .adc
  | .subAB | .subAC | .subAD | .subAE | .subAH | .subAL | .subAIndHL | .subAA | .subAN8 => .sub
  | .sbcAB | .sbcAC | .sbcAD | .sbcAE | .sbcAH | .sbcAL | .sbcAIndHL | .sbcAA | .sbcAN8 => .sbc

/-- The operand target of a decoded instruction, per row of R74. -/
def Instr.target : Instr → Target
  | .addAB | .adcAB | .subAB | .sbcAB => .reg .b
  | .addAC | .adcAC | .subAC | .sbcAC => .reg .c
  | .addAD | .adcAD | .subAD | .sbcAD => .reg .d
  | .addAE | .adcAE | .subAE | .sbcAE => .reg .e
  | .addAH | .adcAH | .subAH | .sbcAH => .reg .h
  | .addAL | .adcAL | .subAL | .sbcAL => .reg .l
  | .addAIndHL | .adcAIndHL | .subAIndHL | .sbcAIndHL => .hl
  | .addAA | .adcAA | .subAA | .sbcAA => .reg .a
  | .addAN8 | .adcAN8 | .subAN8 | .sbcAN8 => .d8

/-- The instruction with a given operation and target: the inverse of `Instr.op` and `Instr.target`
(spec/30_encoding.md R76: one pair per row). -/
def Instr.ofForm : Op → Target → Instr
  | .add, .reg .b => .addAB
  | .add, .reg .c => .addAC
  | .add, .reg .d => .addAD
  | .add, .reg .e => .addAE
  | .add, .reg .h => .addAH
  | .add, .reg .l => .addAL
  | .add, .hl => .addAIndHL
  | .add, .reg .a => .addAA
  | .add, .d8 => .addAN8
  | .adc, .reg .b => .adcAB
  | .adc, .reg .c => .adcAC
  | .adc, .reg .d => .adcAD
  | .adc, .reg .e => .adcAE
  | .adc, .reg .h => .adcAH
  | .adc, .reg .l => .adcAL
  | .adc, .hl => .adcAIndHL
  | .adc, .reg .a => .adcAA
  | .adc, .d8 => .adcAN8
  | .sub, .reg .b => .subAB
  | .sub, .reg .c => .subAC
  | .sub, .reg .d => .subAD
  | .sub, .reg .e => .subAE
  | .sub, .reg .h => .subAH
  | .sub, .reg .l => .subAL
  | .sub, .hl => .subAIndHL
  | .sub, .reg .a => .subAA
  | .sub, .d8 => .subAN8
  | .sbc, .reg .b => .sbcAB
  | .sbc, .reg .c => .sbcAC
  | .sbc, .reg .d => .sbcAD
  | .sbc, .reg .e => .sbcAE
  | .sbc, .reg .h => .sbcAH
  | .sbc, .reg .l => .sbcAL
  | .sbc, .hl => .sbcAIndHL
  | .sbc, .reg .a => .sbcAA
  | .sbc, .d8 => .sbcAN8

/-- The operation that a gated operation is (spec/60_exceptions.md R191). -/
def SubOp.toOp : SubOp → Op
  | .sub => .sub
  | .sbc => .sbc

/-- The code of the operation field `ooo` (spec/30_encoding.md R72). -/
def Op.code : Op → BitVec 3
  | .add => 0b000#3
  | .adc => 0b001#3
  | .sub => 0b010#3
  | .sbc => 0b011#3

/-- The code of a named register in the target field `rrr` (spec/30_encoding.md R72) and in `rd_sel` (spec/10_state.md R34). -/
def Reg8.code : Reg8 → BitVec 3
  | .b => 0b000#3
  | .c => 0b001#3
  | .d => 0b010#3
  | .e => 0b011#3
  | .h => 0b100#3
  | .l => 0b101#3
  | .a => 0b111#3

/-- Format F1: `10 ooo rrr` (spec/30_encoding.md R71). -/
def encodeF1 (ooo rrr : BitVec 3) : Byte :=
  0b10#2 ++ ooo ++ rrr

/-- The first byte of format F2: `11 ooo 110` (spec/30_encoding.md R73). -/
def encodeF2 (ooo : BitVec 3) : Byte :=
  0b11#2 ++ ooo ++ 0b110#3

/-- The opcode byte of an instruction, from the formats and field codes of R71 to R73. -/
def Instr.opcode (i : Instr) : Byte :=
  match i.target with
  | .reg r => encodeF1 i.op.code r.code
  | .hl => encodeF1 i.op.code 0b110#3
  | .d8 => encodeF2 i.op.code

/-- The bytes of a spelled instruction, at ascending addresses: the opcode, then the immediate byte where there is one
(spec/30_encoding.md R70, R73). -/
def encode (x : AsmInstr) : List Byte :=
  x.instr.opcode :: x.imm.toList

/-- The length in bytes of an instruction with a given target (spec/30_encoding.md R70, spec/40_execution_cycle.md R96). -/
def Target.length : Target → Nat
  | .reg _ | .hl => 1
  | .d8 => 2

/-- The name of an operation in the conventional assembly spelling (spec/30_encoding.md R80). -/
def Op.name : Op → String
  | .add => "ADD"
  | .adc => "ADC"
  | .sub => "SUB"
  | .sbc => "SBC"

/-- The name of an operand target in the conventional assembly spelling (spec/30_encoding.md R80). -/
def Target.name : Target → String
  | .reg .a => "A"
  | .reg .b => "B"
  | .reg .c => "C"
  | .reg .d => "D"
  | .reg .e => "E"
  | .reg .h => "H"
  | .reg .l => "L"
  | .hl => "(HL)"
  | .d8 => "n8"

/-- The conventional assembly spelling of an instruction, `ADD A,r` and the like (spec/30_encoding.md R80). -/
def Instr.assembly (i : Instr) : String :=
  i.op.name ++ " A," ++ i.target.name

/-- The first byte of a table word: its bits 7:0, where the bits from `nbits` up are zero. -/
def tableByte0 (nbits w : Nat) : Byte :=
  BitVec.ofNat 8 (w % 2 ^ nbits)

/-- The second byte of a table word: its bits 15:8, where the bits from `nbits` up are zero. -/
def tableByte1 (nbits w : Nat) : Byte :=
  BitVec.ofNat 8 (w % 2 ^ nbits / 256)

/-- What the decoder reads from an instruction whose bits are `w`, numbered as spec/opcode_table.json numbers them: the first
byte is bits 7:0 and the second is bits 15:8. -/
def decodeTableWord (nbits w : Nat) : Option Instr :=
  match decodeStream [tableByte0 nbits w, tableByte1 nbits w] with
  | .ok (x, _) => some x.instr
  | .error _ => none

end Sys2Proof
end

