-- ==== Sys2Proof/Machine/State.lean ====
section
/-! DEFINITION. The state of the core as plain data (spec/10_state.md), the state after reset (spec/70_reset_and_hazards.md R210), and the
reasons for which a step stops. -/

namespace Sys2Proof.Machine

/-- The four condition flags, in the order of the packed view `f` (spec/10_state.md R20, R22). -/
structure Flags where
  /-- Zero. -/
  z : Bool
  /-- Subtraction. -/
  n : Bool
  /-- Half-carry. -/
  h : Bool
  /-- Carry. -/
  c : Bool
deriving DecidableEq, Repr

/-- The fault record of spec/60_exceptions.md R192: the cause code (1 DecodeFailure, 2 Unimplemented), the opcode byte, the
address it was fetched from, and the operation, which is there for cause 2 only. -/
structure FaultRecord where
  causeCode : Byte
  opcode : Byte
  address : Word
  operation : Option SubOp
deriving DecidableEq, Repr

/-- The run state of spec/10_state.md R40. -/
inductive RunState where
  | running
  | halted (record : FaultRecord)
deriving DecidableEq, Repr

/-- One access of the core to the bus, as the bus sees it (spec/20_memory.md R51, R56). -/
inductive BusAccess where
  /-- One call of `read_byte`. -/
  | read (address : Word)
  /-- One call of `write_byte`. No instruction in scope makes one (R55). -/
  | write (address : Word) (value : Byte)
deriving DecidableEq, Repr

/-- The plain-memory half of the parameter BUS (spec/00_scope.md R7): the bytes that the platform has placed at addresses which answer as plain
memory, by strictly rising address. An address that is not listed is answered by `Config.busAnswer`. -/
abbrev Memory := List Host.Cell

/-- The state of the core (the head of spec/10_state.md), and beside it what the model keeps of the parameters:
the platform's side of the bus (`mem`, `busLog`) and the build's choices (`params`). -/
structure State where
  /-- General registers (R20); `a` is the accumulator (R21). -/
  a : Byte
  b : Byte
  c : Byte
  d : Byte
  e : Byte
  h : Byte
  l : Byte
  /-- Z, N, H, C (R20). The byte `f` is a view of them (R22, R24). -/
  flags : Flags
  /-- The stack pointer (R33). -/
  sp : Word
  /-- The program counter (R35). -/
  pc : Word
  /-- Running or Halted (R40). -/
  run : RunState
  /-- The bytes on the bus that answer as plain memory (spec/00_scope.md R7; notes/assumptions/1.md). -/
  mem : Memory
  /-- The accesses the core has made, oldest first: what the bus observes (spec/20_memory.md R56, R63; notes/assumptions/3.md). -/
  busLog : List BusAccess
  /-- The parameters of the build (spec/00_scope.md R8, R9; notes/assumptions/2.md). -/
  params : Params
deriving DecidableEq, Repr

/-- The state after reset (spec/10_state.md R43 to R46, spec/70_reset_and_hazards.md R210, R212): nothing is placed on the bus and the build is
the default one. -/
def State.reset : State where
  a := 0x00#8
  b := 0x00#8
  c := 0x00#8
  d := 0x00#8
  e := 0x00#8
  h := 0x00#8
  l := 0x00#8
  flags := { z := false, n := false, h := false, c := false }
  sp := 0x0000#16
  pc := 0x0000#16
  run := .running
  mem := []
  busLog := []
  params := Params.default

/-- Why the machine stops without a next state. -/
inductive Fault where
  /-- Raised by `step` alone, when the run state is Halted: a Halted core takes no step and leaves Halted only by reset
  (spec/60_exceptions.md R196). Safe: the hardware does not go on either. -/
  | coreHalted (record : FaultRecord)
deriving DecidableEq, Repr

/-- Why an instruction has no meaning in the model. -/
inductive Refusal where
  /-- Raised by an arm of `exec` whose instruction has no meaning yet, with its mnemonic in the opcode table. No arm raises it now. Safe. -/
  | notModelled (mnemonic : String)
deriving DecidableEq, Repr

end Sys2Proof.Machine
end

