-- ==== Sys2Proof/Machine/Flags.lean ====
section
/-! DEFINITION. The flags: the packed view `f` (spec/10_state.md R22, R23), and the four operations of the arithmetic unit with the flags they
compute (spec/41_add_adc.md R110, R111; spec/42_sub_sbc.md R150, R151). -/

namespace Sys2Proof.Machine

/-- A bool used as a number (spec/00_scope.md R12). -/
def boolByte (x : Bool) : Byte :=
  if x then 1#8 else 0#8

/-- The packed view `f` of the flags (spec/10_state.md R22). -/
def Flags.pack (x : Flags) : Byte :=
  boolByte x.z <<< 7 ||| boolByte x.n <<< 6 ||| boolByte x.h <<< 5 ||| boolByte x.c <<< 4

/-- The flags that a write of `v` into the view `f` leaves; bits 3:0 are discarded (spec/10_state.md R23). -/
def Flags.unpack (v : Byte) : Flags where
  z := v.getLsbD 7
  n := v.getLsbD 6
  h := v.getLsbD 5
  c := v.getLsbD 4

/-- What an operation of the arithmetic unit answers: the result byte and all four flags (spec/40_execution_cycle.md R99). -/
structure AluOut where
  res : Byte
  flags : Flags
deriving DecidableEq, Repr

/-- The low nibble `v & 0xF` of a byte, as a number. -/
def lowNibble (v : Byte) : Nat :=
  (v &&& 0x0F#8).toNat

/-- The operand with the incoming carry folded in: the exact sum `t` of spec/41_add_adc.md R111 and spec/42_sub_sbc.md R151. -/
def foldedSum (operand : Byte) (cin : Bool) : Nat :=
  operand.toNat + cin.toNat

/-- `intermediate` of R111 and R151: the folded operand modulo 256. -/
def intermediate (operand : Byte) (cin : Bool) : Byte :=
  BitVec.ofNat 8 (foldedSum operand cin)

/-- `first_overflow` of R111 and R151. -/
def firstOverflow (operand : Byte) (cin : Bool) : Bool :=
  decide (foldedSum operand cin > 0xFF)

/-- Add (spec/41_add_adc.md R110). The incoming carry is not read. -/
def add8 (acc operand : Byte) (_cin : Bool) : AluOut :=
  let sum := acc.toNat + operand.toNat
  let res : Byte := BitVec.ofNat 8 sum
  { res := res
    flags :=
      { z := res == 0#8
        n := false
        h := decide (lowNibble acc + lowNibble operand > 0xF)
        c := decide (sum > 0xFF) } }

/-- Add with carry (spec/41_add_adc.md R111). The half-carry is computed against the folded operand (R112). -/
def adc8 (acc operand : Byte) (cin : Bool) : AluOut :=
  let inter := intermediate operand cin
  let s := acc.toNat + inter.toNat
  let res : Byte := BitVec.ofNat 8 s
  { res := res
    flags :=
      { z := res == 0#8
        n := false
        h := decide (lowNibble acc + lowNibble inter > 0xF)
        c := firstOverflow operand cin || decide (s > 0xFF) } }

/-- Subtract, of the symmetric build (spec/42_sub_sbc.md R150). The incoming carry is not read. -/
def sub8 (acc operand : Byte) (_cin : Bool) : AluOut :=
  let res : Byte := acc - operand
  { res := res
    flags :=
      { z := res == 0#8
        n := true
        h := decide (lowNibble acc < lowNibble operand)
        c := decide (acc.toNat < operand.toNat) } }

/-- Subtract with carry, of the symmetric build (spec/42_sub_sbc.md R151). The half-borrow is computed against the folded operand. -/
def sbc8 (acc operand : Byte) (cin : Bool) : AluOut :=
  let inter := intermediate operand cin
  let res : Byte := acc - inter
  { res := res
    flags :=
      { z := res == 0#8
        n := true
        h := decide (lowNibble acc < lowNibble inter)
        c := firstOverflow operand cin || decide (acc.toNat < inter.toNat) } }

/-- The arithmetic unit: one operation on the accumulator, the operand and the incoming carry (spec/40_execution_cycle.md R91, R99). -/
def alu : Op → Byte → Byte → Bool → AluOut
  | .add => add8
  | .adc => adc8
  | .sub => sub8
  | .sbc => sbc8

end Sys2Proof.Machine
end

