-- ==== Sys2Proof/Machine/Ops.lean ====
section
/-! DEFINITION. The named operations over registers, memory, the bus and the program counter, and the entry into a fatal outcome with the one way out
of it, reset (spec/10_state.md, spec/20_memory.md, spec/60_exceptions.md R190 to R196, spec/70_reset_and_hazards.md R210). -/

namespace Sys2Proof.Machine

/-! ## Registers, the view `f` and the pairs -/

/-- `x[r]` (spec/10_state.md R25). -/
def State.getReg (s : State) : Reg8 → Byte
  | .a => s.a
  | .b => s.b
  | .c => s.c
  | .d => s.d
  | .e => s.e
  | .h => s.h
  | .l => s.l

/-- `x[r] <- v` (spec/10_state.md R25). -/
def State.setReg (s : State) (r : Reg8) (v : Byte) : State :=
  match r with
  | .a => { s with a := v }
  | .b => { s with b := v }
  | .c => { s with c := v }
  | .d => { s with d := v }
  | .e => { s with e := v }
  | .h => { s with h := v }
  | .l => { s with l := v }

/-- A write of the four flags. -/
def State.setFlags (s : State) (x : Flags) : State :=
  { s with flags := x }

/-- A read of the view `f` (spec/10_state.md R22, R25). -/
def State.getF (s : State) : Byte :=
  s.flags.pack

/-- A write of the view `f` (spec/10_state.md R23, R25). -/
def State.setF (s : State) (v : Byte) : State :=
  s.setFlags (Flags.unpack v)

/-- The four register pairs (spec/10_state.md R26). -/
inductive Pair where
  | af | bc | de | hl
deriving DecidableEq, Repr

/-- The high byte of a 16-bit value, `v[15:8]`. -/
def highByte (v : Word) : Byte :=
  v.extractLsb' 8 8

/-- The low byte of a 16-bit value, `v[7:0]`. -/
def lowByte (v : Word) : Byte :=
  v.extractLsb' 0 8

/-- `pair(P)` (spec/10_state.md R26, R27): the first-named register is the high byte. -/
def State.getPair (s : State) : Pair → Word
  | .af => s.a ++ s.getF
  | .bc => s.b ++ s.c
  | .de => s.d ++ s.e
  | .hl => s.h ++ s.l

/-- `pair(P) <- v` (spec/10_state.md R28). -/
def State.setPair (s : State) (p : Pair) (v : Word) : State :=
  match p with
  | .af => (s.setReg .a (highByte v)).setF (lowByte v)
  | .bc => (s.setReg .b (highByte v)).setReg .c (lowByte v)
  | .de => (s.setReg .d (highByte v)).setReg .e (lowByte v)
  | .hl => (s.setReg .h (highByte v)).setReg .l (lowByte v)

/-- A write of `sp`, by the host alone (spec/10_state.md R33). -/
def State.setSp (s : State) (v : Word) : State :=
  { s with sp := v }

/-- A write of `pc` (spec/10_state.md R35, R36). -/
def State.setPc (s : State) (v : Word) : State :=
  { s with pc := v }

/-- A write of the run state (spec/10_state.md R40). -/
def State.setRun (s : State) (r : RunState) : State :=
  { s with run := r }

/-- A change of the platform's plain memory. -/
def State.setMem (s : State) (m : Memory) : State :=
  { s with mem := m }

/-! ## The program counter -/

/-- `(pc + len) mod 2^16` (spec/10_state.md R37). -/
def nextPc (pc : Word) (len : Nat) : Word :=
  pc + BitVec.ofNat 16 len

/-- The commit of the next pc (spec/10_state.md R36, spec/40_execution_cycle.md R97). -/
def State.commitPc (s : State) (len : Nat) : State :=
  s.setPc (nextPc s.pc len)

/-! ## Memory and the bus -/

/-- The canonical form of a memory: addresses strictly rising and inside the 16-bit space (spec/20_memory.md R50). What an
unlisted address reads as is no fixed byte (`State.busAnswer`), so no listed byte repeats it. -/
abbrev Memory.wf (m : Memory) : Prop :=
  m.Pairwise (fun x y => x.1 < y.1) ∧ ∀ x ∈ m, x.1 < 65536

/-- The byte a memory holds at an address, if it lists the address. -/
def Memory.lookup : Memory → Nat → Option Byte
  | [], _ => none
  | (k, v) :: m, a => if k = a then some v else Memory.lookup m a

/-- A byte placed at an address; the canonical form is kept (`Sys2Proof.Laws.Memory.write_wf`). -/
def Memory.write : Memory → Nat → Byte → Memory
  | [], a, v => [(a, v)]
  | (k, w) :: m, a, v =>
    if a < k then (a, v) :: (k, w) :: m
    else if a = k then (a, v) :: m
    else (k, w) :: Memory.write m a v

/-- An address taken off the list; the canonical form is kept (`Sys2Proof.Laws.Memory.erase_wf`). -/
def Memory.erase (m : Memory) (a : Nat) : Memory :=
  m.filter (fun x => x.1 != a)

/-- The plain-memory byte at a bus address, if the platform has placed one there. -/
def State.peek (s : State) (address : Word) : Option Byte :=
  s.mem.lookup address.toNat

/-- The byte the bus answers to the core's next access, were it a read of `address` (spec/20_memory.md R51): what stands there as plain
memory, or else whatever the oracle answers. -/
def State.busAnswer (s : State) (address : Word) : Byte :=
  (s.peek address).getD (Config.busAnswer s.busLog.length address)

/-- Records an access as made (spec/20_memory.md R56). -/
def State.note (s : State) (x : BusAccess) : State :=
  { s with busLog := s.busLog ++ [x] }

/-- `MemRead(address, 1)` (spec/00_scope.md R14, spec/20_memory.md R51): the byte answered, and the state in which this one read has been made. -/
def State.memRead (s : State) (address : Word) : Byte × State :=
  (s.busAnswer address, s.note (.read address))

/-- A byte placed on the bus as plain memory, by the platform (spec/70_reset_and_hazards.md R213). The core makes no access here. -/
def State.platformWrite (s : State) (address : Word) (v : Byte) : State :=
  s.setMem (s.mem.write address.toNat v)

/-- An address that no longer answers as plain memory: the platform has mapped something else there, and the oracle answers it from now on
(spec/20_memory.md R51, R66). -/
def State.platformRelease (s : State) (address : Word) : State :=
  s.setMem (s.mem.erase address.toNat)

/-- `MemWrite(address, 1, v)` (spec/00_scope.md R14, spec/20_memory.md R51), the bus's `write_byte`: it is part of the bus contract, and no
instruction in scope calls it (R55). -/
def State.memWrite (s : State) (address : Word) (v : Byte) : State :=
  (s.note (.write address v)).platformWrite address v

/-- The opcode fetch, the first bus access of a step (spec/20_memory.md R57). -/
def State.fetchOpcode (s : State) : Byte × State :=
  s.memRead s.pc

/-- The bytes of an instruction placed where the next step fetches it, in a core that runs. -/
def State.placeInstruction (s : State) (byte0 byte1 : Byte) : State :=
  ((s.platformWrite s.pc byte0).platformWrite (nextPc s.pc 1) byte1).setRun .running

/-! ## Fatal outcomes, and reset -/

/-- The entry into a fatal outcome (spec/60_exceptions.md R193): the run state holds the record, and no register, no flag, not `sp` and not `pc`
is written. There is no vector, no saved register and no return: only reset leaves Halted (R196). -/
def State.raiseFatal (s : State) (r : FaultRecord) : State :=
  s.setRun (.halted r)

/-- `raise DecodeFailure(opcode, pc)`, cause code 1 (spec/60_exceptions.md R190, R192). -/
def State.raiseDecodeFailure (s : State) (opcode : Byte) : State :=
  s.raiseFatal { causeCode := 1#8, opcode := opcode, address := s.pc, operation := none }

/-- `raise Unimplemented(opcode, pc, operation)`, cause code 2 (spec/60_exceptions.md R191, R192). -/
def State.raiseUnimplemented (s : State) (opcode : Byte) (operation : SubOp) : State :=
  s.raiseFatal { causeCode := 2#8, opcode := opcode, address := s.pc, operation := some operation }

/-- Reset of a core that exists (spec/70_reset_and_hazards.md R210): every piece of architectural state takes its reset value and any fault record is
discarded; the bus is neither accessed nor changed, and the build stays what it is. -/
def State.resetCore (s : State) : State :=
  { State.reset with mem := s.mem, busLog := s.busLog, params := s.params }

end Sys2Proof.Machine
end

