-- ==== Sys2Proof/Machine/Operands.lean ====
section
/-! DEFINITION. The three operand addressing modes (spec/40_execution_cycle.md R93 to R96, spec/20_memory.md R58) and the shared course of an
executed and of a gated instruction (spec/40_execution_cycle.md R91, R92, R97 to R100). -/

namespace Sys2Proof.Machine

/-- The operand of a target, and the state after the bus read it takes, if it takes one: the register's value (R93), the byte at pair hl (R94), or the
byte after the opcode (R95). -/
def State.fetchOperand (s : State) : Target → Byte × State
  | .reg r => (s.getReg r, s)
  | .hl => s.memRead (s.getPair .hl)
  | .d8 => s.memRead (nextPc s.pc 1)

/-- The write-back of an executed instruction: the accumulator and all four flags (R98). -/
def State.writeBack (s : State) (r : AluOut) : State :=
  (s.setReg .a r.res).setFlags r.flags

/-- The course of an instruction that executes, after its opcode has been fetched (R91): the operand, the arithmetic unit on the accumulator and the carry
as they were at the start, the write-back, the commit of the next pc. -/
def State.executeArith (s : State) (op : Op) (t : Target) : State :=
  let operand := s.fetchOperand t
  ((operand.2.writeBack (alu op s.a operand.1 s.flags.c))).commitPc t.length

/-- The course of a SUB or SBC instruction after its opcode has been fetched (R91, R92; spec/42_sub_sbc.md R152, R160): it executes in the symmetric build;
in the other, it raises Unimplemented, or leaves everything as it is under the placeholder policy (R100). The check comes before any operand read. -/
def State.executeSubtract (s : State) (opcode : Byte) (op : SubOp) (t : Target) : State :=
  match s.params.subtractMode, s.params.unimplementedPolicy with
  | .symmetric, _ => s.executeArith op.toOp t
  | .unimplemented, .fault => s.raiseUnimplemented opcode op
  | .unimplemented, .placeholder => s

end Sys2Proof.Machine
end

