-- ==== Sys2Proof/Machine/Adc.lean ====
section
/-! DEFINITION. The meanings of ADC, add with carry to the accumulator (spec/41_add_adc.md R129 to R137). Each is what its instruction does after its
opcode has been fetched. -/

namespace Sys2Proof.Machine

/-- `ADC A,B` (R129). -/
def execAdcAB (s : State) : Host.Outcome State Fault Refusal :=
  .next (s.executeArith .adc (.reg .b))

/-- `ADC A,C` (R130). -/
def execAdcAC (s : State) : Host.Outcome State Fault Refusal :=
  .next (s.executeArith .adc (.reg .c))

/-- `ADC A,D` (R131). -/
def execAdcAD (s : State) : Host.Outcome State Fault Refusal :=
  .next (s.executeArith .adc (.reg .d))

/-- `ADC A,E` (R132). -/
def execAdcAE (s : State) : Host.Outcome State Fault Refusal :=
  .next (s.executeArith .adc (.reg .e))

/-- `ADC A,H` (R133). -/
def execAdcAH (s : State) : Host.Outcome State Fault Refusal :=
  .next (s.executeArith .adc (.reg .h))

/-- `ADC A,L` (R134). -/
def execAdcAL (s : State) : Host.Outcome State Fault Refusal :=
  .next (s.executeArith .adc (.reg .l))

/-- `ADC A,(HL)` (R135). -/
def execAdcAIndHL (s : State) : Host.Outcome State Fault Refusal :=
  .next (s.executeArith .adc .hl)

/-- `ADC A,A` (R136). -/
def execAdcAA (s : State) : Host.Outcome State Fault Refusal :=
  .next (s.executeArith .adc (.reg .a))

/-- `ADC A,n8` (R137). -/
def execAdcAN8 (s : State) : Host.Outcome State Fault Refusal :=
  .next (s.executeArith .adc .d8)

end Sys2Proof.Machine
end

