-- ==== Sys2Proof/Machine/Add.lean ====
section
/-! DEFINITION. The meanings of ADD, add to the accumulator (spec/41_add_adc.md R120 to R128). Each is what its instruction does after its
opcode has been fetched. -/

namespace Sys2Proof.Machine

/-- `ADD A,B` (R120). -/
def execAddAB (s : State) : Host.Outcome State Fault Refusal :=
  .next (s.executeArith .add (.reg .b))

/-- `ADD A,C` (R121). -/
def execAddAC (s : State) : Host.Outcome State Fault Refusal :=
  .next (s.executeArith .add (.reg .c))

/-- `ADD A,D` (R122). -/
def execAddAD (s : State) : Host.Outcome State Fault Refusal :=
  .next (s.executeArith .add (.reg .d))

/-- `ADD A,E` (R123). -/
def execAddAE (s : State) : Host.Outcome State Fault Refusal :=
  .next (s.executeArith .add (.reg .e))

/-- `ADD A,H` (R124). -/
def execAddAH (s : State) : Host.Outcome State Fault Refusal :=
  .next (s.executeArith .add (.reg .h))

/-- `ADD A,L` (R125). -/
def execAddAL (s : State) : Host.Outcome State Fault Refusal :=
  .next (s.executeArith .add (.reg .l))

/-- `ADD A,(HL)` (R126). -/
def execAddAIndHL (s : State) : Host.Outcome State Fault Refusal :=
  .next (s.executeArith .add .hl)

/-- `ADD A,A` (R127). -/
def execAddAA (s : State) : Host.Outcome State Fault Refusal :=
  .next (s.executeArith .add (.reg .a))

/-- `ADD A,n8` (R128). -/
def execAddAN8 (s : State) : Host.Outcome State Fault Refusal :=
  .next (s.executeArith .add .d8)

end Sys2Proof.Machine
end

