-- ==== Sys2Proof/Machine/Sbc.lean ====
section
/-! DEFINITION. The meanings of SBC, subtract with carry from the accumulator, gated by SUBTRACT_MODE (spec/42_sub_sbc.md R169 to R177). Each is what its instruction does after its
opcode has been fetched. -/

namespace Sys2Proof.Machine

/-- `SBC A,B` (R169). -/
def execSbcAB (s : State) : Host.Outcome State Fault Refusal :=
  .next (s.executeSubtract 0x98#8 .sbc (.reg .b))

/-- `SBC A,C` (R170). -/
def execSbcAC (s : State) : Host.Outcome State Fault Refusal :=
  .next (s.executeSubtract 0x99#8 .sbc (.reg .c))

/-- `SBC A,D` (R171). -/
def execSbcAD (s : State) : Host.Outcome State Fault Refusal :=
  .next (s.executeSubtract 0x9A#8 .sbc (.reg .d))

/-- `SBC A,E` (R172). -/
def execSbcAE (s : State) : Host.Outcome State Fault Refusal :=
  .next (s.executeSubtract 0x9B#8 .sbc (.reg .e))

/-- `SBC A,H` (R173). -/
def execSbcAH (s : State) : Host.Outcome State Fault Refusal :=
  .next (s.executeSubtract 0x9C#8 .sbc (.reg .h))

/-- `SBC A,L` (R174). -/
def execSbcAL (s : State) : Host.Outcome State Fault Refusal :=
  .next (s.executeSubtract 0x9D#8 .sbc (.reg .l))

/-- `SBC A,(HL)` (R175). -/
def execSbcAIndHL (s : State) : Host.Outcome State Fault Refusal :=
  .next (s.executeSubtract 0x9E#8 .sbc .hl)

/-- `SBC A,A` (R176). -/
def execSbcAA (s : State) : Host.Outcome State Fault Refusal :=
  .next (s.executeSubtract 0x9F#8 .sbc (.reg .a))

/-- `SBC A,n8` (R177). -/
def execSbcAN8 (s : State) : Host.Outcome State Fault Refusal :=
  .next (s.executeSubtract 0xDE#8 .sbc .d8)

end Sys2Proof.Machine
end

