-- ==== Sys2Proof/Machine/Sub.lean ====
section
/-! DEFINITION. The meanings of SUB, subtract from the accumulator, gated by SUBTRACT_MODE (spec/42_sub_sbc.md R160 to R168). Each is what its instruction does after its
opcode has been fetched. -/

namespace Sys2Proof.Machine

/-- `SUB A,B` (R160). -/
def execSubAB (s : State) : Host.Outcome State Fault Refusal :=
  .next (s.executeSubtract 0x90#8 .sub (.reg .b))

/-- `SUB A,C` (R161). -/
def execSubAC (s : State) : Host.Outcome State Fault Refusal :=
  .next (s.executeSubtract 0x91#8 .sub (.reg .c))

/-- `SUB A,D` (R162). -/
def execSubAD (s : State) : Host.Outcome State Fault Refusal :=
  .next (s.executeSubtract 0x92#8 .sub (.reg .d))

/-- `SUB A,E` (R163). -/
def execSubAE (s : State) : Host.Outcome State Fault Refusal :=
  .next (s.executeSubtract 0x93#8 .sub (.reg .e))

/-- `SUB A,H` (R164). -/
def execSubAH (s : State) : Host.Outcome State Fault Refusal :=
  .next (s.executeSubtract 0x94#8 .sub (.reg .h))

/-- `SUB A,L` (R165). -/
def execSubAL (s : State) : Host.Outcome State Fault Refusal :=
  .next (s.executeSubtract 0x95#8 .sub (.reg .l))

/-- `SUB A,(HL)` (R166). -/
def execSubAIndHL (s : State) : Host.Outcome State Fault Refusal :=
  .next (s.executeSubtract 0x96#8 .sub .hl)

/-- `SUB A,A` (R167). -/
def execSubAA (s : State) : Host.Outcome State Fault Refusal :=
  .next (s.executeSubtract 0x97#8 .sub (.reg .a))

/-- `SUB A,n8` (R168). -/
def execSubAN8 (s : State) : Host.Outcome State Fault Refusal :=
  .next (s.executeSubtract 0xD6#8 .sub .d8)

end Sys2Proof.Machine
end

