-- ==== Sys2Proof/Machine/Step.lean ====
section
/-! DEFINITION. One step of the core (spec/40_execution_cycle.md R90 to R92), and the placing of an instruction where the next step fetches it. -/

namespace Sys2Proof.Machine

/-- One step. A Halted core takes none (spec/60_exceptions.md R196). A Running core fetches one opcode byte at `pc` and decodes it; a byte that decodes to none
raises DecodeFailure, and any other runs its instruction (spec/40_execution_cycle.md R91). -/
def step (s : State) : Host.Outcome State Fault Refusal :=
  match s.run with
  | .halted r => .fault (.coreHalted r)
  | .running =>
    match decode s.fetchOpcode.1 with
    | none => .next (s.fetchOpcode.2.raiseDecodeFailure s.fetchOpcode.1)
    | some i => exec i s.fetchOpcode.2

/-- The state `s` with the instruction whose bits are `w` placed at `pc`, its second byte at the address after, in a core that runs, so that the next step
fetches and runs exactly it. This is the load of a program from outside the machine (notes/assumptions/5.md). -/
def State.withFetchWord (s : State) (nbits w : Nat) : State :=
  s.placeInstruction (tableByte0 nbits w) (tableByte1 nbits w)

end Sys2Proof.Machine
end

