-- ==== Sys2Proof/Machine/HostPort.lean ====
section
/-! DEFINITION. The host (debug) port of the register file and of the program counter (spec/10_state.md R32) and the host's interactions with the
core at a step boundary (spec/60_exceptions.md R198). A state is a step boundary: no state stands inside a step (spec/40_execution_cycle.md R90). -/

namespace Sys2Proof.Machine

/-- The 8-bit registers of the host port: the seven of the file and the view `f` (spec/10_state.md R32). -/
inductive HostReg8 where
  | gpr (r : Reg8)
  | f
deriving DecidableEq, Repr

/-- The four flag booleans, named one by one (spec/10_state.md R32). -/
inductive FlagName where
  | z | n | h | c
deriving DecidableEq, Repr

/-- One flag boolean read. -/
def Flags.get (x : Flags) : FlagName → Bool
  | .z => x.z
  | .n => x.n
  | .h => x.h
  | .c => x.c

/-- One flag boolean written; the others stay (spec/10_state.md R32). -/
def Flags.set (x : Flags) (k : FlagName) (v : Bool) : Flags :=
  match k with
  | .z => { x with z := v }
  | .n => { x with n := v }
  | .h => { x with h := v }
  | .c => { x with c := v }

/-- The host's read of an 8-bit register (spec/10_state.md R25, R32). -/
def State.hostRead8 (s : State) : HostReg8 → Byte
  | .gpr r => s.getReg r
  | .f => s.getF

/-- The host's write of an 8-bit register; a write of `f` unpacks by R23 (spec/10_state.md R32). -/
def State.hostWrite8 (s : State) (r : HostReg8) (v : Byte) : State :=
  match r with
  | .gpr r => s.setReg r v
  | .f => s.setF v

/-- The host's read of the fault record, which is there while the core is Halted (spec/60_exceptions.md R192, R198). -/
def State.hostFaultRecord (s : State) : Option FaultRecord :=
  match s.run with
  | .running => none
  | .halted r => some r

/-- What the host may do at a step boundary (spec/60_exceptions.md R198) and, last, what another agent of the platform may do to the bus there
(spec/20_memory.md R66, spec/70_reset_and_hazards.md R213). Reads change nothing and need no action: `hostRead8`, `getPair`, `Flags.get`, the fields `pc`
and `sp`, and `hostFaultRecord`. -/
inductive HostAction where
  | write8 (r : HostReg8) (v : Byte)
  | writePair (p : Pair) (v : Word)
  | writeFlag (k : FlagName) (v : Bool)
  | writePc (v : Word)
  | writeSp (v : Word)
  /-- The host stops stepping: no state change (R198). -/
  | stopStepping
  /-- Reset, at any boundary (spec/70_reset_and_hazards.md R210). -/
  | reset
  /-- A byte is placed on the bus as plain memory. -/
  | placeByte (address : Word) (v : Byte)
  /-- An address stops answering as plain memory. -/
  | releaseByte (address : Word)
deriving DecidableEq, Repr

/-- The effect of an action of the host (spec/60_exceptions.md R198). The remaining interaction, one step of a Running core, is `step`. -/
def State.hostAct (s : State) : HostAction → State
  | .write8 r v => s.hostWrite8 r v
  | .writePair p v => s.setPair p v
  | .writeFlag k v => s.setFlags (s.flags.set k v)
  | .writePc v => s.setPc v
  | .writeSp v => s.setSp v
  | .stopStepping => s
  | .reset => s.resetCore
  | .placeByte address v => s.platformWrite address v
  | .releaseByte address => s.platformRelease address

end Sys2Proof.Machine
end

