-- ==== Sys2Proof/Machine/Ports.lean ====
section
/-! DEFINITION. The five blocks with their ports (spec/00_scope.md R3, spec/10_state.md R34 and R39, spec/20_memory.md R60, spec/30_encoding.md R79,
spec/41_add_adc.md R114), and one step of a Running core wired through them. It is a second description of the step, written from the port tables and
the bit fields, not from the decode table or the meanings; that it is the same step is an obligation. -/

namespace Sys2Proof.Machine

/-! ## instruction_decoder -/

/-- The outputs of the instruction decoder (spec/30_encoding.md R79). `rdSel` is `none` where the table gives no value: it gives one for the
register targets only. -/
structure DecoderOut where
  valid : BitVec 1
  op : BitVec 2
  target : BitVec 4
  len : BitVec 2
  opndMode : BitVec 2
  rdSel : Option (BitVec 3)
  implemented : BitVec 1
deriving DecidableEq, Repr

/-- The target code of R79 for a named register or (HL): the field `rrr`. -/
def targetOfField (rrr : BitVec 3) : BitVec 4 :=
  0b0#1 ++ rrr

/-- The target code of R79 for the immediate operand. -/
def targetD8 : BitVec 4 :=
  8#4

/-- `opnd_mode` of R79 from the target code: 01 for HL, 10 for D8, 00 for the registers. -/
def opndModeOf (target : BitVec 4) : BitVec 2 :=
  if target = 6#4 then 0b01#2 else if target = targetD8 then 0b10#2 else 0b00#2

/-- `implemented` of R79 from the operation code. -/
def implementedOf (m : SubtractMode) (op : BitVec 2) : BitVec 1 :=
  match m with
  | .symmetric => 1#1
  | .unimplemented => if op.getLsbD 1 then 0#1 else 1#1

/-- The outputs for an opcode with a given target code (R79). -/
def decoderOutFor (m : SubtractMode) (opcode : Byte) (target : BitVec 4) : DecoderOut where
  valid := 1#1
  op := opcode.extractLsb' 3 2
  target := target
  len := if target = targetD8 then 2#2 else 1#2
  opndMode := opndModeOf target
  rdSel := if opndModeOf target = 0b00#2 then some (target.extractLsb' 0 3) else none
  implemented := implementedOf m (opcode.extractLsb' 3 2)

/-- The instruction decoder at its ports (R79), on the bit conditions of R74: the first case is `op[7:5] = 100`, the second is `op[7:5] = 110` with
`op[2:0] = 110`. When `valid` is 0 every other output is 0. -/
def decoderOut (m : SubtractMode) (opcode : Byte) : DecoderOut :=
  if opcode.extractLsb' 5 3 = 0b100#3 then decoderOutFor m opcode (targetOfField (opcode.extractLsb' 0 3))
  else if opcode.extractLsb' 5 3 = 0b110#3 ∧ opcode.extractLsb' 0 3 = 0b110#3 then decoderOutFor m opcode targetD8
  else
    { valid := 0#1, op := 0#2, target := 0#4, len := 0#2, opndMode := 0#2, rdSel := some 0#3, implemented := 0#1 }

/-! ## register_file -/

/-- `rd_data` (spec/10_state.md R34); the code 110 selects no register. -/
def State.rdData (s : State) (rdSel : BitVec 3) : Option Byte :=
  if rdSel = 0b000#3 then some s.b
  else if rdSel = 0b001#3 then some s.c
  else if rdSel = 0b010#3 then some s.d
  else if rdSel = 0b011#3 then some s.e
  else if rdSel = 0b100#3 then some s.h
  else if rdSel = 0b101#3 then some s.l
  else if rdSel = 0b111#3 then some s.a
  else none

/-- `hl_out` (spec/10_state.md R34). -/
def State.hlOut (s : State) : Word :=
  s.getPair .hl

/-- The four flags on a 4-bit port, bit 3 the Z and bit 0 the C (spec/10_state.md R34). -/
def Flags.toPort (x : Flags) : BitVec 4 :=
  BitVec.ofBool x.z ++ BitVec.ofBool x.n ++ BitVec.ofBool x.h ++ BitVec.ofBool x.c

/-- The flags that a 4-bit port carries. -/
def Flags.ofPort (v : BitVec 4) : Flags where
  z := v.getLsbD 3
  n := v.getLsbD 2
  h := v.getLsbD 1
  c := v.getLsbD 0

/-- The write-back ports `wb_en`, `wb_a`, `wb_flags` (spec/10_state.md R34). -/
def State.writeBackPorts (s : State) (wbEn : BitVec 1) (wbA : Byte) (wbFlags : BitVec 4) : State :=
  if wbEn = 1#1 then { s with a := wbA, flags := Flags.ofPort wbFlags } else s

/-! ## program_counter -/

/-- `pc_plus1` (spec/10_state.md R39). -/
def State.pcPlus1 (s : State) : Word :=
  s.pc + 1#16

/-- The port `commit` with the length `len` (spec/10_state.md R39). -/
def State.commitPort (s : State) (commit : BitVec 1) (len : BitVec 2) : State :=
  if commit = 1#1 then { s with pc := s.pc + len.zeroExtend 16 } else s

/-! ## fetch_unit -/

/-- The bus address of the operand read that `opnd_mode` selects, if it selects one (spec/20_memory.md R60); the code 11 is unused. -/
def State.operandAddress (s : State) (opndMode : BitVec 2) : Option Word :=
  if opndMode = 0b01#2 then some s.hlOut
  else if opndMode = 0b10#2 then some s.pcPlus1
  else none

/-- The operand at the port of the arithmetic unit (spec/41_add_adc.md R114): `opnd_byte` after one bus read in the modes that read, else `rd_data`.
`none` where a port that no rule drives would be used. -/
def State.operandPort (s : State) (d : DecoderOut) : Option (Byte × State) :=
  match s.operandAddress d.opndMode with
  | some address => some (s.memRead address)
  | none =>
    match d.rdSel with
    | some sel => (s.rdData sel).map (fun v => (v, s))
    | none => none

/-! ## alu_with_flags -/

/-- The arithmetic unit at its ports (spec/41_add_adc.md R114): `op` 00 ADD, 01 ADC, 10 SUB, 11 SBC; the result and the 4-bit flags. -/
def aluPorts (op : BitVec 2) (acc operand : Byte) (cin : Bool) : Byte × BitVec 4 :=
  let r :=
    if op = 0b00#2 then add8 acc operand cin
    else if op = 0b01#2 then adc8 acc operand cin
    else if op = 0b10#2 then sub8 acc operand cin
    else sbc8 acc operand cin
  (r.res, r.flags.toPort)

/-! ## The step through the ports -/

/-- The gated operation that the code `op` names in a fault record: 10 SUB, 11 SBC (spec/30_encoding.md R79, spec/60_exceptions.md R192). -/
def subOpOfCode (op : BitVec 2) : Option SubOp :=
  if op = 0b10#2 then some .sub else if op = 0b11#2 then some .sbc else none

/-- The part of the step after the implementation check: operand, arithmetic unit, write-back, pc commit (spec/40_execution_cycle.md R91, R92). -/
def State.datapathExecute (s : State) (d : DecoderOut) : Option State :=
  match s.operandPort d with
  | none => none
  | some (operand, s') =>
    let out := aluPorts d.op s.a operand ((s.flags.toPort).getLsbD 0)
    some ((s'.writeBackPorts 1#1 out.1 out.2).commitPort 1#1 d.len)

/-- One step of a Running core, wired through the ports in the order of spec/40_execution_cycle.md R92. `none` would say that a port no rule drives
is used; it never is (an obligation). -/
def State.datapathStep (s : State) : Option State :=
  let opcode := s.busAnswer s.pc
  let s1 := s.note (.read s.pc)
  let d := decoderOut s.params.subtractMode opcode
  if d.valid = 0#1 then
    some { s1 with run := .halted ⟨1#8, opcode, s.pc, none⟩ }
  else if d.implemented = 0#1 then
    match s.params.unimplementedPolicy with
    | .fault => some { s1 with run := .halted ⟨2#8, opcode, s.pc, subOpOfCode d.op⟩ }
    | .placeholder => some s1
  else s1.datapathExecute d

end Sys2Proof.Machine
end

