-- ==== Sys2Proof/Safety.lean ====
section
/-! DEFINITION. What the claims call a legal state, a step that executes, the accesses of a step, and a run. -/

namespace Sys2Proof

/-- Whether a build has execution logic for an operation (spec/30_encoding.md R79, `implemented`). -/
def Params.implements (p : Params) : Op → Bool
  | .add | .adc => true
  | .sub | .sbc => p.subtractMode == .symmetric

end Sys2Proof

namespace Sys2Proof.Machine

/-- A fault record that a step of this build could have made (spec/60_exceptions.md R190 to R192): cause 1 names a byte that decodes to none and no operation; cause 2
names the opcode of a SUB or SBC and its operation, in a build that raises Unimplemented. -/
def FaultRecord.Consistent (p : Params) (r : FaultRecord) : Prop :=
  (r.causeCode = 1#8 ∧ r.operation = none ∧ decode r.opcode = none) ∨
    (r.causeCode = 2#8 ∧ p.subtractMode = .unimplemented ∧ p.unimplementedPolicy = .fault ∧
      ∃ i op, decode r.opcode = some i ∧ i.op = SubOp.toOp op ∧ r.operation = some op)

/-- An access that reads. -/
def BusAccess.isRead : BusAccess → Bool
  | .read _ => true
  | .write _ _ => false

/-- The invariant of the machine: the memory is in canonical form, a fault record is one that a step could have made, and the core has written nothing to the
bus (spec/20_memory.md R55). -/
structure State.Inv (s : State) : Prop where
  memWf : Memory.wf s.mem
  recordConsistent : ∀ r, s.run = .halted r → r.Consistent s.params
  readsOnly : ∀ x ∈ s.busLog, x.isRead = true

/-- The accesses that a step of a Running core makes, in order (the table of spec/20_memory.md R59): the opcode read, then, for an instruction that executes, the read
of an (HL) or D8 operand. -/
def State.stepAccesses (s : State) : List BusAccess :=
  match decode (s.busAnswer s.pc) with
  | none => [.read s.pc]
  | some i =>
    if s.params.implements i.op then
      match i.target with
      | .reg _ => [.read s.pc]
      | .hl => [.read s.pc, .read (s.getPair .hl)]
      | .d8 => [.read s.pc, .read (s.pc + 1#16)]
    else [.read s.pc]

/-- What may happen at a step boundary: a step of the core that answers a next state, or an action of the host or of another agent of the platform
(spec/60_exceptions.md R198). -/
inductive State.Event : State → State → Prop where
  | step (s t : State) (h : Sys2Proof.Machine.step s = .next t) : State.Event s t
  | host (s : State) (x : HostAction) : State.Event s (s.hostAct x)

/-- The states that a run of steps and host actions reaches. -/
inductive State.Reaches (s : State) : State → Prop where
  | refl : State.Reaches s s
  | tail (t u : State) (h : State.Reaches s t) (e : State.Event t u) : State.Reaches s u

end Sys2Proof.Machine
end

