-- ==== Sys2Proof/Certificates/Slice0/Obligations.lean ====
section
/-! DEFINITION. The statements about the model, one `Obligations.<Name>` each, and the states and tables they are written with, from the numbered rules of spec/. -/

namespace Sys2Proof.Statements

open Sys2Proof.Machine

/-! The tables of the spec that several statements range over. -/

/-- The ADD rows of the decode table of R74, as the spec gives them: opcode, operation, target, length. -/
def specRowsAdd : List (Byte × Op × Target × Nat) :=
  [(0x80#8, .add, .reg .b, 1), (0x81#8, .add, .reg .c, 1), (0x82#8, .add, .reg .d, 1), (0x83#8, .add, .reg .e, 1),
   (0x84#8, .add, .reg .h, 1), (0x85#8, .add, .reg .l, 1), (0x86#8, .add, .hl, 1), (0x87#8, .add, .reg .a, 1),
   (0xC6#8, .add, .d8, 2)]

/-- The ADC rows of R74. -/
def specRowsAdc : List (Byte × Op × Target × Nat) :=
  [(0x88#8, .adc, .reg .b, 1), (0x89#8, .adc, .reg .c, 1), (0x8A#8, .adc, .reg .d, 1), (0x8B#8, .adc, .reg .e, 1),
   (0x8C#8, .adc, .reg .h, 1), (0x8D#8, .adc, .reg .l, 1), (0x8E#8, .adc, .hl, 1), (0x8F#8, .adc, .reg .a, 1),
   (0xCE#8, .adc, .d8, 2)]

/-- The SUB rows of R74. -/
def specRowsSub : List (Byte × Op × Target × Nat) :=
  [(0x90#8, .sub, .reg .b, 1), (0x91#8, .sub, .reg .c, 1), (0x92#8, .sub, .reg .d, 1), (0x93#8, .sub, .reg .e, 1),
   (0x94#8, .sub, .reg .h, 1), (0x95#8, .sub, .reg .l, 1), (0x96#8, .sub, .hl, 1), (0x97#8, .sub, .reg .a, 1),
   (0xD6#8, .sub, .d8, 2)]

/-- The SBC rows of R74. -/
def specRowsSbc : List (Byte × Op × Target × Nat) :=
  [(0x98#8, .sbc, .reg .b, 1), (0x99#8, .sbc, .reg .c, 1), (0x9A#8, .sbc, .reg .d, 1), (0x9B#8, .sbc, .reg .e, 1),
   (0x9C#8, .sbc, .reg .h, 1), (0x9D#8, .sbc, .reg .l, 1), (0x9E#8, .sbc, .hl, 1), (0x9F#8, .sbc, .reg .a, 1),
   (0xDE#8, .sbc, .d8, 2)]

/-- The 36 rows of R74. -/
def specRows : List (Byte × Op × Target × Nat) :=
  specRowsAdd ++ specRowsAdc ++ specRowsSub ++ specRowsSbc

/-- The 9 SUB opcodes that a build may leave unimplemented (R191), with the instruction and the recorded operation. -/
def gatedSubRows : List (Byte × Instr × SubOp) :=
  [(0x90#8, .subAB, .sub), (0x91#8, .subAC, .sub), (0x92#8, .subAD, .sub), (0x93#8, .subAE, .sub),
   (0x94#8, .subAH, .sub), (0x95#8, .subAL, .sub), (0x96#8, .subAIndHL, .sub), (0x97#8, .subAA, .sub),
   (0xD6#8, .subAN8, .sub)]

/-- The 9 SBC opcodes of R191. -/
def gatedSbcRows : List (Byte × Instr × SubOp) :=
  [(0x98#8, .sbcAB, .sbc), (0x99#8, .sbcAC, .sbc), (0x9A#8, .sbcAD, .sbc), (0x9B#8, .sbcAE, .sbc),
   (0x9C#8, .sbcAH, .sbc), (0x9D#8, .sbcAL, .sbc), (0x9E#8, .sbcAIndHL, .sbc), (0x9F#8, .sbcAA, .sbc),
   (0xDE#8, .sbcAN8, .sbc)]

/-- The register forms of ADD (R120 to R125, R127): opcode, instruction, register. -/
def addRegisterRows : List (Byte × Instr × Reg8) :=
  [(0x80#8, .addAB, .b), (0x81#8, .addAC, .c), (0x82#8, .addAD, .d), (0x83#8, .addAE, .e),
   (0x84#8, .addAH, .h), (0x85#8, .addAL, .l), (0x87#8, .addAA, .a)]

/-- The register forms of ADC (R129 to R134, R136). -/
def adcRegisterRows : List (Byte × Instr × Reg8) :=
  [(0x88#8, .adcAB, .b), (0x89#8, .adcAC, .c), (0x8A#8, .adcAD, .d), (0x8B#8, .adcAE, .e),
   (0x8C#8, .adcAH, .h), (0x8D#8, .adcAL, .l), (0x8F#8, .adcAA, .a)]

/-- The register forms of SUB (R160 to R165, R167). -/
def subRegisterRows : List (Byte × Instr × Reg8) :=
  [(0x90#8, .subAB, .b), (0x91#8, .subAC, .c), (0x92#8, .subAD, .d), (0x93#8, .subAE, .e),
   (0x94#8, .subAH, .h), (0x95#8, .subAL, .l), (0x97#8, .subAA, .a)]

/-- The register forms of SBC (R169 to R174, R176). -/
def sbcRegisterRows : List (Byte × Instr × Reg8) :=
  [(0x98#8, .sbcAB, .b), (0x99#8, .sbcAC, .c), (0x9A#8, .sbcAD, .d), (0x9B#8, .sbcAE, .e),
   (0x9C#8, .sbcAH, .h), (0x9D#8, .sbcAL, .l), (0x9F#8, .sbcAA, .a)]

/-! The states after an executed instruction, in exact arithmetic on the numbers the registers hold. `s` is the state after the opcode fetch, `operand` the operand
byte, `len` the instruction's length, `reads` the operand's bus reads. Every field that is not named is unchanged. -/

/-- After ADD (R110, R97, R98). -/
def afterAdd (s : State) (operand : Byte) (len : Nat) (reads : List BusAccess) : State :=
  let sum := s.a.toNat + operand.toNat
  { s with
    a := BitVec.ofNat 8 (sum % 256)
    flags := ⟨decide (sum % 256 = 0), false, decide (s.a.toNat % 16 + operand.toNat % 16 > 15), decide (sum > 255)⟩
    pc := BitVec.ofNat 16 ((s.pc.toNat + len) % 65536)
    busLog := s.busLog ++ reads }

/-- After ADC (R111, R97, R98): `inter` is the operand with the carry folded in. -/
def afterAdc (s : State) (operand : Byte) (len : Nat) (reads : List BusAccess) : State :=
  let t := operand.toNat + s.flags.c.toNat
  let inter := t % 256
  let sum := s.a.toNat + inter
  { s with
    a := BitVec.ofNat 8 (sum % 256)
    flags := ⟨decide (sum % 256 = 0), false, decide (s.a.toNat % 16 + inter % 16 > 15), decide (t > 255 ∨ sum > 255)⟩
    pc := BitVec.ofNat 16 ((s.pc.toNat + len) % 65536)
    busLog := s.busLog ++ reads }

/-- After SUB of the symmetric build (R150, R97, R98). -/
def afterSub (s : State) (operand : Byte) (len : Nat) (reads : List BusAccess) : State :=
  let res := (s.a.toNat + 256 - operand.toNat) % 256
  { s with
    a := BitVec.ofNat 8 res
    flags := ⟨decide (res = 0), true, decide (s.a.toNat % 16 < operand.toNat % 16), decide (s.a.toNat < operand.toNat)⟩
    pc := BitVec.ofNat 16 ((s.pc.toNat + len) % 65536)
    busLog := s.busLog ++ reads }

/-- After SBC of the symmetric build (R151, R97, R98). -/
def afterSbc (s : State) (operand : Byte) (len : Nat) (reads : List BusAccess) : State :=
  let t := operand.toNat + s.flags.c.toNat
  let inter := t % 256
  let res := (s.a.toNat + 256 - inter) % 256
  { s with
    a := BitVec.ofNat 8 res
    flags := ⟨decide (res = 0), true, decide (s.a.toNat % 16 < inter % 16), decide (t > 255 ∨ s.a.toNat < inter)⟩
    pc := BitVec.ofNat 16 ((s.pc.toNat + len) % 65536)
    busLog := s.busLog ++ reads }

/-- The address of an (HL) operand: h is the high byte (R94). -/
def hlAddress (s : State) : Word :=
  BitVec.ofNat 16 (s.h.toNat * 256 + s.l.toNat)

/-- The address of an immediate operand (R95). -/
def immAddress (s : State) : Word :=
  BitVec.ofNat 16 ((s.pc.toNat + 1) % 65536)

/-- The state after one bus read at `address`: nothing but the list of accesses changes. -/
def afterRead (s : State) (address : Word) : State :=
  { s with busLog := s.busLog ++ [.read address] }

/-- The 4-bit pattern of the low half of a byte. -/
def lowHalf (v : Byte) : BitVec 4 :=
  v.extractLsb' 0 4

end Sys2Proof.Statements

open Sys2Proof Sys2Proof.Machine Sys2Proof.Statements

/-! ## The register file and the flags -/

/-- R22: the view `f` is Z, N, H, C in bits 7, 6, 5, 4, and bits 3:0 are 0. -/
def Obligations.FlagViewPacksBits : Prop :=
  ∀ s : State, s.getF.toNat =
    128 * s.flags.z.toNat + 64 * s.flags.n.toNat + 32 * s.flags.h.toNat + 16 * s.flags.c.toNat

/-- R23, R24: a write of `f` sets the four flags from bits 7:4, discards bits 3:0 and changes nothing else; a read of `f` always has bits 3:0 zero, and writing back what was
read changes nothing. -/
def Obligations.FlagViewWriteUnpacks : Prop :=
  (∀ (s : State) (v : Byte),
    s.setF v = { s with flags := ⟨v.getLsbD 7, v.getLsbD 6, v.getLsbD 5, v.getLsbD 4⟩ } ∧
      (s.setF v).getF = v &&& 0xF0#8) ∧
    ∀ s : State, s.getF &&& 0x0F#8 = 0#8 ∧ s.setF s.getF = s

/-- R25: a register reads what was written to it, and the write changes no other register and no flag; `F` reads as the packed flags and its write unpacks. -/
def Obligations.RegisterFileAccess : Prop :=
  (∀ (s : State) (r : Reg8) (v : Byte),
    (s.setReg r v).getReg r = v ∧ (∀ q, q ≠ r → (s.setReg r v).getReg q = s.getReg q) ∧
      (s.setReg r v).flags = s.flags ∧ (s.setReg r v).sp = s.sp ∧ (s.setReg r v).pc = s.pc ∧
      (s.setReg r v).run = s.run ∧ (s.setReg r v).mem = s.mem ∧ (s.setReg r v).busLog = s.busLog ∧
      (s.setReg r v).params = s.params) ∧
    ∀ (s : State) (v : Byte),
      (s.hostRead8 .f).toNat =
        128 * s.flags.z.toNat + 64 * s.flags.n.toNat + 32 * s.flags.h.toNat + 16 * s.flags.c.toNat ∧
      s.hostWrite8 .f v = { s with flags := ⟨v.getLsbD 7, v.getLsbD 6, v.getLsbD 5, v.getLsbD 4⟩ }

/-- R26, R27: a pair reads as its first-named register in bits 15:8 and its second in bits 7:0, where `f` is the packed flags. -/
def Obligations.PairReadsHighByteFirst : Prop :=
  ∀ s : State,
    (s.getPair .af).toNat = s.a.toNat * 256 +
      (128 * s.flags.z.toNat + 64 * s.flags.n.toNat + 32 * s.flags.h.toNat + 16 * s.flags.c.toNat) ∧
    (s.getPair .bc).toNat = s.b.toNat * 256 + s.c.toNat ∧
    (s.getPair .de).toNat = s.d.toNat * 256 + s.e.toNat ∧
    (s.getPair .hl).toNat = s.h.toNat * 256 + s.l.toNat

/-- R28: a pair write writes the two halves and nothing else; BC, DE and HL read back what was written, and AF reads it back with bits 3:0 zero. -/
def Obligations.PairWriteThenRead : Prop :=
  ∀ (s : State) (v : Word),
    (∃ x y : Byte, x.toNat = v.toNat / 256 ∧ y.toNat = v.toNat % 256 ∧
      s.setPair .af v = { s with a := x, flags := ⟨v.getLsbD 7, v.getLsbD 6, v.getLsbD 5, v.getLsbD 4⟩ } ∧
      s.setPair .bc v = { s with b := x, c := y } ∧
      s.setPair .de v = { s with d := x, e := y } ∧
      s.setPair .hl v = { s with h := x, l := y }) ∧
    (s.setPair .bc v).getPair .bc = v ∧ (s.setPair .de v).getPair .de = v ∧ (s.setPair .hl v).getPair .hl = v ∧
    (s.setPair .af v).getPair .af = v &&& 0xFFF0#16

/-- The host port (spec/10_state.md R32, spec/60_exceptions.md R198; a host write of `f` is decision D16): each write changes its target alone, and stopping changes nothing.
A byte that the platform places on the bus, or an address that it releases, changes that address alone (the model's form of it, notes/assumptions/4.md). -/
def Obligations.HostWritesItsTargetOnly : Prop :=
  ∀ s : State,
    (∀ r v, ∃ t, t = s.hostAct (.write8 (.gpr r) v) ∧ t.hostRead8 (.gpr r) = v ∧
      (∀ q, q ≠ r → t.hostRead8 (.gpr q) = s.hostRead8 (.gpr q)) ∧ t.flags = s.flags ∧ t.sp = s.sp ∧ t.pc = s.pc ∧
      t.run = s.run ∧ t.mem = s.mem ∧ t.busLog = s.busLog ∧ t.params = s.params) ∧
    (∀ p v, s.hostAct (.writePair p v) = s.setPair p v) ∧
    (∀ v, s.hostAct (.write8 .f v) = { s with flags := ⟨v.getLsbD 7, v.getLsbD 6, v.getLsbD 5, v.getLsbD 4⟩ }) ∧
    (∀ k v, ∃ x : Flags, s.hostAct (.writeFlag k v) = { s with flags := x } ∧ x.get k = v ∧
      ∀ j, j ≠ k → x.get j = s.flags.get j) ∧
    (∀ v, s.hostAct (.writePc v) = { s with pc := v }) ∧
    (∀ v, s.hostAct (.writeSp v) = { s with sp := v }) ∧
    s.hostAct .stopStepping = s ∧
    (∀ address v, ∃ m, s.hostAct (.placeByte address v) = { s with mem := m } ∧
      ∀ b, (s.hostAct (.placeByte address v)).peek b = if b = address then some v else s.peek b) ∧
    (∀ address, ∃ m, s.hostAct (.releaseByte address) = { s with mem := m } ∧
      ∀ b, (s.hostAct (.releaseByte address)).peek b = if b = address then none else s.peek b)

/-! ## The program counter and reset -/

/-- R37: next-pc arithmetic is modulo 2^16, for the two lengths. -/
def Obligations.NextPcIsModular : Prop :=
  ∀ (pc : Word) (len : Nat), (len = 1 ∨ len = 2) →
    (nextPc pc len).toNat = (pc.toNat + len) % 65536

/-- R43: pc and sp are 0x0000 after reset. -/
def Obligations.ResetClearsPcAndSp : Prop :=
  State.reset.pc = 0x0000#16 ∧ State.reset.sp = 0x0000#16

/-- The rest of the reset state is the spec's own decision (D5 for the registers and flags, D11 for the run state; spec/10_state.md R44 to R46). -/
def Obligations.ResetClearsTheRest : Prop :=
  (∀ r, State.reset.getReg r = 0x00#8) ∧ State.reset.flags = ⟨false, false, false, false⟩ ∧
    State.reset.getF = 0x00#8 ∧ (∀ p, State.reset.getPair p = 0x0000#16) ∧ State.reset.run = .running

/-- Reset at a step boundary (spec/70_reset_and_hazards.md R210, decision D11): every register takes its reset value, a fault record is discarded, and the bus is neither accessed nor changed. -/
def Obligations.HostResetKeepsTheBus : Prop :=
  ∀ s : State,
    (∀ r, (s.hostAct .reset).getReg r = 0x00#8) ∧ (s.hostAct .reset).flags = ⟨false, false, false, false⟩ ∧
      (s.hostAct .reset).pc = 0x0000#16 ∧ (s.hostAct .reset).sp = 0x0000#16 ∧ (s.hostAct .reset).run = .running ∧
      (s.hostAct .reset).hostFaultRecord = none ∧ (s.hostAct .reset).mem = s.mem ∧
      (s.hostAct .reset).busLog = s.busLog ∧ (s.hostAct .reset).params = s.params ∧
      ∀ address, (s.hostAct .reset).busAnswer address = s.busAnswer address

/-- After a reset the core always steps, its first access is the read of address 0x0000 (spec/70_reset_and_hazards.md R211), and it halts at once with
DecodeFailure(opcode, 0x0000) when the byte there is not in the decode table (R214), 0x00 among them. -/
def Obligations.FirstFetchAfterReset : Prop :=
  ∀ s : State,
    (∃ t more, step s.resetCore = .next t ∧ t.busLog = s.busLog ++ .read 0x0000#16 :: more) ∧
    (decode (s.busAnswer 0x0000#16) = none →
      step s.resetCore = .next
        { s.resetCore with
          busLog := s.busLog ++ [.read 0x0000#16]
          run := .halted ⟨1#8, s.busAnswer 0x0000#16, 0x0000#16, none⟩ }) ∧
    decode 0x00#8 = none

/-! ## The bus -/

/-- One read (spec/20_memory.md R51, R56, decisions D7 and D8): the answer is the plain-memory byte where the platform has placed one and the oracle's
answer elsewhere, and the read is recorded exactly once. Two clauses are the model's choices: the split of the bus into these two halves
(notes/assumptions/1.md), and that a read changes no plain-memory byte (notes/assumptions/19.md; R56 itself lets a read have side effects on the bus,
which the oracle half covers). -/
def Obligations.BusReadIsOneAccess : Prop :=
  ∀ (s : State) (address : Word),
    (s.memRead address).2 = afterRead s address ∧
      (∀ v, s.peek address = some v → (s.memRead address).1 = v) ∧
      (s.peek address = none → (s.memRead address).1 = Config.busAnswer s.busLog.length address)

/-- The bus's `write_byte` (spec/00_scope.md R14, spec/20_memory.md R51) on plain memory, the model's form of it (notes/assumptions/4.md): the written address reads the written byte, every
other address keeps its byte, the access is recorded once, and the canonical form is kept. -/
def Obligations.WriteByteThenReadByte : Prop :=
  ∀ (s : State) (address : Word) (v : Byte),
    ((s.memWrite address v).memRead address).1 = v ∧
      (∀ b, b ≠ address → (s.memWrite address v).peek b = s.peek b) ∧
      (s.memWrite address v).busLog = s.busLog ++ [.write address v] ∧
      (Memory.wf s.mem → Memory.wf (s.memWrite address v).mem)

/-- The bus reads of a step, in order (spec/20_memory.md R57 to R59): a step begins with exactly one read of pc (R57), and an instruction that
executes makes at most one further read: pair hl for (HL), pc + 1 for D8, none for a register (R58). That a step which ends in Unimplemented or in the
placeholder outcome makes no further read is the spec's own decision D12, in R59 and R92 (notes/assumptions/12.md). -/
def Obligations.StepMakesTheseReads : Prop :=
  (∀ s t : State, step s = .next t → t.busLog = s.busLog ++ s.stepAccesses) ∧
    ∀ s : State,
      (decode (s.busAnswer s.pc) = none → s.stepAccesses = [.read s.pc]) ∧
      ∀ i, decode (s.busAnswer s.pc) = some i →
        (s.params.implements i.op = false → s.stepAccesses = [.read s.pc]) ∧
        (s.params.implements i.op = true →
          (∀ r, i.target = .reg r → s.stepAccesses = [.read s.pc]) ∧
          (i.target = .hl → s.stepAccesses = [.read s.pc, .read (hlAddress s)]) ∧
          (i.target = .d8 → s.stepAccesses = [.read s.pc, .read (immAddress s)]))

/-- No step writes to the bus (spec/20_memory.md R55): the accesses a step adds are one or two reads, the first of them of pc. That every plain-memory
byte is as before is the model's form of this: it speaks of the plain-memory half of the bus alone (notes/assumptions/1.md), and it rests on a read
changing no byte listed there (notes/assumptions/19.md). -/
def Obligations.CoreNeverWritesTheBus : Prop :=
  ∀ s t : State, step s = .next t →
    t.mem = s.mem ∧ (∀ address, t.peek address = s.peek address) ∧
      ∃ reads : List Word, t.busLog = s.busLog ++ reads.map .read ∧ reads.length ≤ 2 ∧ reads.head? = some s.pc

/-! ## Encoding -/

/-- R74, R76: the 36 rows decode to their operation and target, with their length, no two share a byte, and every other byte decodes to none. -/
def Obligations.DecodeFollowsTheTable : Prop :=
  (∀ row ∈ specRows,
    ∃ i, decode row.1 = some i ∧ i.op = row.2.1 ∧ i.target = row.2.2.1 ∧ i.target.length = row.2.2.2) ∧
    (specRows.map (·.1)).Nodup ∧ specRows.length = 36 ∧
    ∀ opcode : Byte, opcode ∉ specRows.map (·.1) → decode opcode = none

/-- The bit conditions that R74 derives from the formats F1 and F2: a byte decodes exactly when `op[7:5] = 100`, or `op[7:5] = 110` with `op[2:0] = 110`; the operation is coded by `op[4:3]`,
and the target by `op[2:0]` or D8. -/
def Obligations.DecodeReadsTheFields : Prop :=
  ∀ opcode : Byte,
    (opcode.extractLsb' 5 3 = 0b100#3 →
      ∃ i, decode opcode = some i ∧ i.op.code = 0b0#1 ++ opcode.extractLsb' 3 2 ∧
        (∀ r, i.target = .reg r ↔ opcode.extractLsb' 0 3 = r.code) ∧
        (i.target = .hl ↔ opcode.extractLsb' 0 3 = 0b110#3)) ∧
    (opcode.extractLsb' 5 3 = 0b110#3 ∧ opcode.extractLsb' 0 3 = 0b110#3 →
      ∃ i, decode opcode = some i ∧ i.op.code = 0b0#1 ++ opcode.extractLsb' 3 2 ∧ i.target = .d8) ∧
    (opcode.extractLsb' 5 3 ≠ 0b100#3 →
      ¬(opcode.extractLsb' 5 3 = 0b110#3 ∧ opcode.extractLsb' 0 3 = 0b110#3) → decode opcode = none)

/-- Decode and encode agree: for every well-formed instruction, with every immediate byte, decoding its bytes gives it back and leaves the bytes that follow. -/
def Obligations.DecodeOfEncode : Prop :=
  ∀ (x : AsmInstr) (rest : List Byte), x.WellFormed → decodeStream (encode x ++ rest) = .ok (x, rest)

/-- The other direction: whatever the decoder accepts is a well-formed instruction whose encoding is what it read. -/
def Obligations.EncodeOfDecode : Prop :=
  ∀ (bytes rest : List Byte) (x : AsmInstr),
    decodeStream bytes = .ok (x, rest) → x.WellFormed ∧ bytes = encode x ++ rest

/-- R70: an instruction is 1 byte long, or 2 exactly when its target is D8; its first byte is the opcode, and the opcode alone determines the length. -/
def Obligations.OpcodeDeterminesLength : Prop :=
  ∀ x : AsmInstr, x.WellFormed →
    (encode x).head? = some x.instr.opcode ∧
      ((∃ r, x.instr.target = .reg r) → (encode x).length = 1) ∧
      (x.instr.target = .hl → (encode x).length = 1) ∧
      (x.instr.target = .d8 → (encode x).length = 2 ∧ (encode x)[1]? = x.imm) ∧
      ∀ y : AsmInstr, y.WellFormed → y.instr.opcode = x.instr.opcode → (encode y).length = (encode x).length

/-- What the decoder rejects, it rejects by name: a byte outside the table whatever follows it, the prefix 0xCB among them (spec/30_encoding.md R76 to
R78). The clauses on a sequence that ends too early (noOpcode, noImmediate) are no rule of the spec: they are the model's own stream decoder
(notes/assumptions/16.md). -/
def Obligations.DecoderRejectsByName : Prop :=
  (∀ (opcode : Byte) (rest : List Byte), decode opcode = none → decodeStream (opcode :: rest) = .error (.unrecognised opcode)) ∧
    decode 0xCB#8 = none ∧ decodeStream [] = .error .noOpcode ∧
    ∀ (opcode : Byte) (i : Instr), decode opcode = some i → i.target = .d8 → decodeStream [opcode] = .error (.noImmediate i)

/-- A few words written out from the formats of R71 to R73 decode to the instruction they stand for, one of each family and format. -/
def Obligations.WrittenOutWords : Prop :=
  decode 0b10000000#8 = some .addAB ∧ decode 0b10001110#8 = some .adcAIndHL ∧
    decode 0b10010111#8 = some .subAA ∧ decode 0b10011101#8 = some .sbcAL ∧
    decodeTableWord 16 0b0010001111000110 = some .addAN8 ∧ decodeTableWord 16 0b0011101011011110 = some .sbcAN8 ∧
    decodeTableWord 8 0xCB = none

/-! ## The arithmetic unit -/

/-- R110: Add. -/
def Obligations.AddComputes : Prop :=
  ∀ (acc operand : Byte) (cin : Bool),
    (add8 acc operand cin).res.toNat = (acc.toNat + operand.toNat) % 256 ∧
      ((add8 acc operand cin).flags.z = true ↔ (add8 acc operand cin).res = 0x00#8) ∧
      (add8 acc operand cin).flags.n = false ∧
      ((add8 acc operand cin).flags.h = true ↔ acc.toNat % 16 + operand.toNat % 16 > 0xF) ∧
      ((add8 acc operand cin).flags.c = true ↔ acc.toNat + operand.toNat > 0xFF)

/-- R111: Add-with-carry folds the carry into the operand first, and takes the half-carry from the folded operand. -/
def Obligations.AddWithCarryComputes : Prop :=
  ∀ (acc operand : Byte) (cin : Bool), ∃ inter : Byte,
    inter.toNat = (operand.toNat + cin.toNat) % 256 ∧
      (adc8 acc operand cin).res.toNat = (acc.toNat + inter.toNat) % 256 ∧
      ((adc8 acc operand cin).flags.z = true ↔ (adc8 acc operand cin).res = 0x00#8) ∧
      (adc8 acc operand cin).flags.n = false ∧
      ((adc8 acc operand cin).flags.h = true ↔ acc.toNat % 16 + inter.toNat % 16 > 0xF) ∧
      ((adc8 acc operand cin).flags.c = true ↔
        (operand.toNat + cin.toNat > 0xFF ∨ acc.toNat + inter.toNat > 0xFF))

/-- The half-carry of ADC and the reassociated formula (spec/41_add_adc.md R112, which derives it by enumeration): they differ in exactly one class, carry in with an operand whose low nibble is
0xF; there the half-carry is clear for every accumulator and the reassociated formula is set. -/
def Obligations.AddWithCarryHalfCarryClass : Prop :=
  ∀ (acc operand : Byte) (cin : Bool),
    (((adc8 acc operand cin).flags.h = decide (acc.toNat % 16 + operand.toNat % 16 + cin.toNat > 15)) ↔
      ¬(cin = true ∧ lowHalf operand = 0xF#4)) ∧
    (cin = true → lowHalf operand = 0xF#4 →
      (adc8 acc operand cin).flags.h = false ∧ acc.toNat % 16 + operand.toNat % 16 + cin.toNat > 15)

/-- The fold order changes only H (spec/41_add_adc.md R113): the result is the exact sum modulo 256 and C is its overflow out of bit 7. -/
def Obligations.AddWithCarrySum : Prop :=
  ∀ (acc operand : Byte) (cin : Bool),
    (adc8 acc operand cin).res.toNat = (acc.toNat + operand.toNat + cin.toNat) % 256 ∧
      ((adc8 acc operand cin).flags.c = true ↔ acc.toNat + operand.toNat + cin.toNat > 0xFF)

/-- SUB of the symmetric build, the spec's own derivation (spec/42_sub_sbc.md R150, decisions D2 and D19). -/
def Obligations.SubtractComputes : Prop :=
  ∀ (acc operand : Byte) (cin : Bool),
    (sub8 acc operand cin).res.toNat = (acc.toNat + 256 - operand.toNat) % 256 ∧
      ((sub8 acc operand cin).flags.z = true ↔ acc = operand) ∧
      (sub8 acc operand cin).flags.n = true ∧
      ((sub8 acc operand cin).flags.h = true ↔ acc.toNat % 16 < operand.toNat % 16) ∧
      ((sub8 acc operand cin).flags.c = true ↔ acc.toNat < operand.toNat)

/-- SBC of the symmetric build, the spec's own derivation (spec/42_sub_sbc.md R151, decisions D2 and D19), with the consequences that rule draws: the result and the borrow are those of the exact
difference, and the half-borrow differs from the silicon formula only with carry in and an operand whose low nibble is 0xF. -/
def Obligations.SubtractWithCarryComputes : Prop :=
  ∀ (acc operand : Byte) (cin : Bool),
    (sbc8 acc operand cin).res.toNat = (acc.toNat + 512 - operand.toNat - cin.toNat) % 256 ∧
      ((sbc8 acc operand cin).flags.z = true ↔ (sbc8 acc operand cin).res = 0x00#8) ∧
      (sbc8 acc operand cin).flags.n = true ∧
      ((sbc8 acc operand cin).flags.h = true ↔ acc.toNat % 16 < (operand.toNat + cin.toNat) % 16) ∧
      ((sbc8 acc operand cin).flags.c = true ↔ acc.toNat < operand.toNat + cin.toNat) ∧
      (¬(cin = true ∧ lowHalf operand = 0xF#4) →
        ((sbc8 acc operand cin).flags.h = true ↔ acc.toNat % 16 < operand.toNat % 16 + cin.toNat)) ∧
      (cin = true → lowHalf operand = 0xF#4 →
        (sbc8 acc operand cin).flags.h = false ∧ acc.toNat % 16 < operand.toNat % 16 + cin.toNat)

/-- With no carry in, the operations with carry answer what the operations without it answer (ADC and ADD: spec/41_add_adc.md R129; SBC and SUB:
spec/42_sub_sbc.md R169), and those do not read the carry. The SBC and SUB half is about the symmetric build, whose formulas are the spec's own
derivation (decisions D2 and D19, notes/assumptions/9.md). -/
def Obligations.ClearCarryMakesNoDifference : Prop :=
  ∀ (acc operand : Byte) (cin : Bool),
    adc8 acc operand false = add8 acc operand cin ∧ sbc8 acc operand false = sub8 acc operand cin

/-! ## The instructions -/

/-- R120 to R125 and R127: ADD A,B, ADD A,C, ADD A,D, ADD A,E, ADD A,H, ADD A,L and ADD A,A have these opcodes, are one byte long, and always complete with this next state. -/
def Obligations.AddRegisterResult : Prop :=
  ∀ row ∈ addRegisterRows,
    (∀ rest, decodeStream (row.1 :: rest) = .ok (⟨row.2.1, none⟩, rest)) ∧
      ∀ s : State, exec row.2.1 s = .next (afterAdd s (s.getReg row.2.2) 1 [])

/-- R126: ADD A,(HL) has opcode 0x86, is one byte long, and always completes with this next state. -/
def Obligations.AddIndirectResult : Prop :=
  (∀ rest, decodeStream (0x86#8 :: rest) = .ok (⟨.addAIndHL, none⟩, rest)) ∧
    ∀ s : State, exec .addAIndHL s = .next (afterAdd s (s.busAnswer (hlAddress s)) 1 [.read (hlAddress s)])

/-- R128: ADD A,n8 has opcode 0xC6, is two bytes long, and always completes with this next state. -/
def Obligations.AddImmediateResult : Prop :=
  (∀ imm rest, decodeStream (0xC6#8 :: imm :: rest) = .ok (⟨.addAN8, some imm⟩, rest)) ∧
    ∀ s : State, exec .addAN8 s = .next (afterAdd s (s.busAnswer (immAddress s)) 2 [.read (immAddress s)])

/-- R129 to R134 and R136: ADC A,B, ADC A,C, ADC A,D, ADC A,E, ADC A,H, ADC A,L and ADC A,A have these opcodes, are one byte long, and always complete with this next state. -/
def Obligations.AdcRegisterResult : Prop :=
  ∀ row ∈ adcRegisterRows,
    (∀ rest, decodeStream (row.1 :: rest) = .ok (⟨row.2.1, none⟩, rest)) ∧
      ∀ s : State, exec row.2.1 s = .next (afterAdc s (s.getReg row.2.2) 1 [])

/-- R135: ADC A,(HL) has opcode 0x8E, is one byte long, and always completes with this next state. -/
def Obligations.AdcIndirectResult : Prop :=
  (∀ rest, decodeStream (0x8E#8 :: rest) = .ok (⟨.adcAIndHL, none⟩, rest)) ∧
    ∀ s : State, exec .adcAIndHL s = .next (afterAdc s (s.busAnswer (hlAddress s)) 1 [.read (hlAddress s)])

/-- R137: ADC A,n8 has opcode 0xCE, is two bytes long, and always completes with this next state. -/
def Obligations.AdcImmediateResult : Prop :=
  (∀ imm rest, decodeStream (0xCE#8 :: imm :: rest) = .ok (⟨.adcAN8, some imm⟩, rest)) ∧
    ∀ s : State, exec .adcAN8 s = .next (afterAdc s (s.busAnswer (immAddress s)) 2 [.read (immAddress s)])

/-- In the symmetric build, whose semantics is the spec's own derivation (decisions D2 and D19): SUB A,B, SUB A,C, SUB A,D, SUB A,E, SUB A,H, SUB A,L and SUB A,A have these opcodes, are one byte long, and
always complete with this next state (spec/42_sub_sbc.md R160 to R165, R167). -/
def Obligations.SubRegisterResult : Prop :=
  ∀ row ∈ subRegisterRows,
    (∀ rest, decodeStream (row.1 :: rest) = .ok (⟨row.2.1, none⟩, rest)) ∧
      ∀ s : State, s.params.subtractMode = .symmetric → exec row.2.1 s = .next (afterSub s (s.getReg row.2.2) 1 [])

/-- SUB A,(HL) in the symmetric build (spec/42_sub_sbc.md R166, decisions D2 and D19). -/
def Obligations.SubIndirectResult : Prop :=
  (∀ rest, decodeStream (0x96#8 :: rest) = .ok (⟨.subAIndHL, none⟩, rest)) ∧
    ∀ s : State, s.params.subtractMode = .symmetric →
      exec .subAIndHL s = .next (afterSub s (s.busAnswer (hlAddress s)) 1 [.read (hlAddress s)])

/-- SUB A,n8 in the symmetric build (spec/42_sub_sbc.md R168, decisions D2 and D19). -/
def Obligations.SubImmediateResult : Prop :=
  (∀ imm rest, decodeStream (0xD6#8 :: imm :: rest) = .ok (⟨.subAN8, some imm⟩, rest)) ∧
    ∀ s : State, s.params.subtractMode = .symmetric →
      exec .subAN8 s = .next (afterSub s (s.busAnswer (immAddress s)) 2 [.read (immAddress s)])

/-- In the symmetric build (decisions D2 and D19): SBC A,B, SBC A,C, SBC A,D, SBC A,E, SBC A,H, SBC A,L and SBC A,A have these opcodes, are one byte long, and always complete with this next state
(spec/42_sub_sbc.md R169 to R174, R176). -/
def Obligations.SbcRegisterResult : Prop :=
  ∀ row ∈ sbcRegisterRows,
    (∀ rest, decodeStream (row.1 :: rest) = .ok (⟨row.2.1, none⟩, rest)) ∧
      ∀ s : State, s.params.subtractMode = .symmetric → exec row.2.1 s = .next (afterSbc s (s.getReg row.2.2) 1 [])

/-- SBC A,(HL) in the symmetric build (spec/42_sub_sbc.md R175, decisions D2 and D19). -/
def Obligations.SbcIndirectResult : Prop :=
  (∀ rest, decodeStream (0x9E#8 :: rest) = .ok (⟨.sbcAIndHL, none⟩, rest)) ∧
    ∀ s : State, s.params.subtractMode = .symmetric →
      exec .sbcAIndHL s = .next (afterSbc s (s.busAnswer (hlAddress s)) 1 [.read (hlAddress s)])

/-- SBC A,n8 in the symmetric build (spec/42_sub_sbc.md R177, decisions D2 and D19). -/
def Obligations.SbcImmediateResult : Prop :=
  (∀ imm rest, decodeStream (0xDE#8 :: imm :: rest) = .ok (⟨.sbcAN8, some imm⟩, rest)) ∧
    ∀ s : State, s.params.subtractMode = .symmetric →
      exec .sbcAN8 s = .next (afterSbc s (s.busAnswer (immAddress s)) 2 [.read (immAddress s)])

/-- The 18 SUB and SBC opcodes of a build without subtraction (spec/60_exceptions.md R191, spec/42_sub_sbc.md R152): under the policy `fault` the
instruction raises Unimplemented with its opcode, its address and its operation, whatever the operands; under `placeholder` it leaves all state as it
is. Cause code 2 and the record's layout are decision D10 (notes/assumptions/15.md), and that no operand read is made is decision D12
(notes/assumptions/12.md). -/
def Obligations.UnimplementedSubtract : Prop :=
  ∀ row ∈ gatedSubRows ++ gatedSbcRows,
    decode row.1 = some row.2.1 ∧
      ∀ s : State, s.params.subtractMode = .unimplemented →
        (s.params.unimplementedPolicy = .fault →
          exec row.2.1 s = .next { s with run := .halted ⟨2#8, row.1, s.pc, some row.2.2⟩ }) ∧
        (s.params.unimplementedPolicy = .placeholder → exec row.2.1 s = .next s)

/-- The source and destination are one register (spec/41_add_adc.md R127, spec/42_sub_sbc.md R167 and R176, as those rules derive it): ADD A,A doubles, with H = a[3], C = a[7] and Z exactly for 0x00 and 0x80; SUB A,A gives
0x00 and F = 0xC0; SBC A,A gives 0x00 and F = 0xC0 without carry, and 0xFF with C set and H set exactly when the low nibble is not 0xF, with carry. -/
def Obligations.AccumulatorAsItsOwnOperand : Prop :=
  ∀ s : State,
    (∃ t, exec .addAA s = .next t ∧ t.a = s.a <<< 1 ∧ t.flags.h = s.a.getLsbD 3 ∧ t.flags.c = s.a.getLsbD 7 ∧
      (t.flags.z = true ↔ s.a = 0x00#8 ∨ s.a = 0x80#8) ∧ t.flags.n = false) ∧
    (s.params.subtractMode = .symmetric →
      (∃ t, exec .subAA s = .next t ∧ t.a = 0x00#8 ∧ t.getF = 0xC0#8) ∧
      (s.flags.c = false → ∃ t, exec .sbcAA s = .next t ∧ t.a = 0x00#8 ∧ t.getF = 0xC0#8) ∧
      (s.flags.c = true → ∃ t, exec .sbcAA s = .next t ∧ t.a = 0xFF#8 ∧ t.flags.c = true ∧
        (t.flags.h = true ↔ lowHalf s.a ≠ 0xF#4)))

/-- The frame of every instruction, all 36 (spec/10_state.md R29, R33, spec/20_memory.md R55, spec/40_execution_cycle.md R98): b, c, d, e, h, l, sp
and the build stay, and no instruction stores, so every byte of plain memory reads as before (that an operand read changes none is
notes/assumptions/19.md). An instruction that executes leaves the run state; one that does not leaves the accumulator, the flags and pc, and makes no
operand read (decision D12, notes/assumptions/12.md). The destinations are a, the four flags and pc. -/
def Obligations.InstructionFrame : Prop :=
  ∀ (i : Instr) (s t : State), exec i s = .next t →
    t.b = s.b ∧ t.c = s.c ∧ t.d = s.d ∧ t.e = s.e ∧ t.h = s.h ∧ t.l = s.l ∧ t.sp = s.sp ∧ t.params = s.params ∧
      (∀ address, t.peek address = s.peek address) ∧
      (s.params.implements i.op = true → t.run = s.run) ∧
      (s.params.implements i.op = false → t.a = s.a ∧ t.flags = s.flags ∧ t.pc = s.pc ∧ t.busLog = s.busLog)

/-- What no instruction reads (spec/10_state.md R30): an instruction that executes computes the same from states that differ in Z, N, H and sp, and
ADD and SUB also from states that differ in C. The two runs are given a bus that answers both alike: they share their plain memory and, by
notes/assumptions/18.md (the model's choice), their free values. -/
def Obligations.UnreadStateMakesNoDifference : Prop :=
  ∀ (i : Instr) (s : State) (z n h c : Bool) (sp : Word),
    s.params.implements i.op = true → (c = s.flags.c ∨ i.op = .add ∨ i.op = .sub) →
      ∃ t, exec i s = .next t ∧ exec i { s with flags := ⟨z, n, h, c⟩, sp := sp } = .next { t with sp := sp }

/-! ## The step, fatal outcomes and the host -/

/-- A step runs the decoded instruction (spec/40_execution_cycle.md R91): in a Running core whose byte at pc decodes to i, the step is exec of i in the state where that one byte has been read, pc still at the opcode. -/
def Obligations.StepRunsTheDecodedInstruction : Prop :=
  ∀ (s : State) (i : Instr), s.run = .running → decode (s.busAnswer s.pc) = some i →
    step s = exec i (afterRead s s.pc)

/-- R93 to R99: a step that executes its instruction. The operand is the register's value (R93), the byte at pair hl (R94) or the byte after the opcode (R95), each read as the bus answers after the opcode read;
the arithmetic unit works on the accumulator and the carry as they were at the start (R99); exactly the accumulator, the four flags and pc are written (R98), and pc advances by the length of R96, modulo 2^16 (R97). -/
def Obligations.ExecutedStepWrites : Prop :=
  ∀ (s : State) (i : Instr), s.run = .running → decode (s.busAnswer s.pc) = some i → s.params.implements i.op = true →
    ∃ (operand : Byte) (len : Nat),
      (∀ r, i.target = .reg r → operand = s.getReg r ∧ len = 1) ∧
      (i.target = .hl → operand = (afterRead s s.pc).busAnswer (hlAddress s) ∧ len = 1) ∧
      (i.target = .d8 → operand = (afterRead s s.pc).busAnswer (immAddress s) ∧ len = 2) ∧
      step s = .next
        { s with
          a := (alu i.op s.a operand s.flags.c).res
          flags := (alu i.op s.a operand s.flags.c).flags
          pc := BitVec.ofNat 16 ((s.pc.toNat + len) % 65536)
          busLog := s.busLog ++ s.stepAccesses }

/-- The entry into a fatal outcome (spec/60_exceptions.md R193), for both outcomes: the run state holds the record, no register, no flag, not sp and
not pc is written, no bus write occurs, and the one opcode read stands. The cause codes and the record's layout (R190 to R192) are the spec's own
decision D10 (notes/assumptions/15.md), and that the step of an unimplemented operation makes the opcode read alone is decision D12
(notes/assumptions/12.md). -/
def Obligations.FatalOutcomeEntry : Prop :=
  ∀ s : State, s.run = .running →
    (decode (s.busAnswer s.pc) = none →
      step s = .next { afterRead s s.pc with run := .halted ⟨1#8, s.busAnswer s.pc, s.pc, none⟩ }) ∧
    ∀ (i : Instr) (op : SubOp), decode (s.busAnswer s.pc) = some i → i.op = SubOp.toOp op →
      s.params.subtractMode = .unimplemented → s.params.unimplementedPolicy = .fault →
      step s = .next { afterRead s s.pc with run := .halted ⟨2#8, s.busAnswer s.pc, s.pc, some op⟩ }

/-- Under the placeholder policy an operation that is not implemented makes only the opcode read and writes nothing, whatever the bus answers
(spec/40_execution_cycle.md R100; that the operand is not read is also decision D12, notes/assumptions/12.md). Where the opcode stands in plain
memory, the run repeats that step without end. R100 says the repetition without this condition: the model adds it, since a bus that is no plain memory
may answer the next read otherwise (notes/assumptions/1.md), and a read changes no byte of plain memory (notes/assumptions/19.md). -/
def Obligations.PlaceholderStepRepeats : Prop :=
  ∀ (s : State) (i : Instr), s.run = .running → s.params.unimplementedPolicy = .placeholder →
    s.params.implements i.op = false →
    (decode (s.busAnswer s.pc) = some i → step s = .next (afterRead s s.pc)) ∧
    ∀ opcode, s.peek s.pc = some opcode → decode opcode = some i → ∀ k : Nat,
      Sys2Proof.core.run k s = .next { s with busLog := s.busLog ++ List.replicate k (.read s.pc) }

/-- A Halted core takes no step and leaves Halted only by reset (spec/60_exceptions.md R196, decision D11): the step stops, and of the host's actions reset alone changes the run state. -/
def Obligations.HaltedUntilReset : Prop :=
  ∀ (s : State) (r : FaultRecord), s.run = .halted r →
    step s = .fault (.coreHalted r) ∧ s.hostFaultRecord = some r ∧
      (∀ x : HostAction, x ≠ .reset → (s.hostAct x).run = .halted r) ∧ (s.hostAct .reset).run = .running

/-- A Running core always answers a next state (spec/60_exceptions.md R194, spec/30_encoding.md R76), and that state is Halted in exactly the two cases of R190 and R191 (spec/40_execution_cycle.md R102, spec/60_exceptions.md R195). -/
def Obligations.RunningCoreAlwaysSteps : Prop :=
  ∀ s : State, s.run = .running →
    ∃ t, step s = .next t ∧
      (t.run ≠ .running ↔
        decode (s.busAnswer s.pc) = none ∨
          ∃ i, decode (s.busAnswer s.pc) = some i ∧ s.params.implements i.op = false ∧
            s.params.unimplementedPolicy = .fault)

/-- A fault is precise (spec/60_exceptions.md R193): the record names the byte fetched and the pc it was fetched from, and everything else is as
before the step, but for the one opcode read. The record's layout is decision D10 (notes/assumptions/15.md), and that an Unimplemented step makes that
read alone is decision D12 (notes/assumptions/12.md). -/
def Obligations.FaultIsPrecise : Prop :=
  ∀ (s t : State) (r : FaultRecord), step s = .next t → t.run = .halted r →
    r.opcode = s.busAnswer s.pc ∧ r.address = s.pc ∧ r.Consistent s.params ∧
      t = { s with run := .halted r, busLog := s.busLog ++ [.read s.pc] }

/-- The step is the step of the five blocks wired through their ports (spec/40_execution_cycle.md R91, R92; the ports are decision D13): the decoder
on the bit fields, the register select, the 4-bit flag port, the operand read that `opnd_mode` selects, the write-back and the commit. No port that
the spec leaves undriven is used. -/
def Obligations.StepRefinesTheDatapath : Prop :=
  ∀ s : State, s.run = .running → ∃ t, s.datapathStep = some t ∧ step s = .next t

/-- The step depends on the bus only through the bytes at the addresses it reads (spec/20_memory.md R57 to R59): with those bytes the same, a
different memory gives the same next state. The two runs are given a bus that answers both alike there, also where an address read is unlisted in both
memories: the oracle then answers both with the same free value, by notes/assumptions/18.md (the model's choice). -/
def Obligations.StepDependsOnTheBytesItReads : Prop :=
  ∀ (s : State) (m : Memory), s.run = .running →
    (∀ address, .read address ∈ s.stepAccesses → m.lookup address.toNat = s.peek address) →
      ∃ t, step s = .next t ∧ step { s with mem := m } = .next { t with mem := m }

/-- The model's interface: the instruction that the decoder reads from a table word is the one that the next step runs when the word is placed (notes/assumptions/5.md). -/
def Obligations.PlacedWordIsRun : Prop :=
  ∀ (s : State) (nbits w : Nat) (i : Instr), decodeTableWord nbits w = some i →
    (s.withFetchWord nbits w).pc = s.pc ∧ (s.withFetchWord nbits w).busAnswer s.pc = tableByte0 nbits w ∧
      (s.withFetchWord nbits w).busAnswer (immAddress s) = tableByte1 nbits w ∧
      step (s.withFetchWord nbits w) = exec i (afterRead (s.withFetchWord nbits w) s.pc)

/-! ## Invariants -/

/-- The reset state meets the invariant. -/
def Obligations.ResetMeetsInv : Prop :=
  State.reset.Inv

/-- Every step keeps the invariant: the memory stays canonical, a fault record is one that a step of this build can make, and the core has written nothing to the bus (spec/20_memory.md R50, R55, spec/60_exceptions.md R190 to R192). -/
def Obligations.StepKeepsInv : Prop :=
  ∀ s t : State, s.Inv → step s = .next t → t.Inv

/-- Every action of the host and of the platform at a step boundary keeps the invariant (spec/60_exceptions.md R198). -/
def Obligations.HostActionKeepsInv : Prop :=
  ∀ (s : State) (x : HostAction), s.Inv → (s.hostAct x).Inv

/-- The invariant holds along every run of steps and host actions, from every state that meets it. -/
def Obligations.InvHoldsAlongRuns : Prop :=
  ∀ s t : State, s.Inv → s.Reaches t → t.Inv

/-- Along every run of steps and host actions the build stays the same (spec/00_scope.md R10), no access is taken back, and what the core added are reads (spec/20_memory.md R55, R63). -/
def Obligations.RunsOnlyAddReads : Prop :=
  ∀ s t : State, s.Reaches t →
    t.params = s.params ∧ ∃ reads : List Word, t.busLog = s.busLog ++ reads.map .read
end

