-- ==== Sys2Proof/Laws/PerInstr.lean ====
section
/-! SUPPORT. The family `Encoding`, one lemma per instruction: its operation and its target name it, and its opcode byte has the length
class that its well-formedness check asks for. -/

namespace Sys2Proof.Laws.Encoding

/-- The operation and the target of an instruction name it (spec/30_encoding.md R76), and its row takes an immediate byte exactly when its
opcode byte is in format F2 (R70, R73). -/
def Statement (i : Instr) : Prop :=
  Instr.ofForm i.op i.target = i ∧ (i.takesImmediate = true ↔ i.target = .d8) ∧
    (i.takesImmediate = true ↔ i.opcode.extractLsb' 6 2 = 0b11#2)

theorem addAB : Statement .addAB := by unfold Statement; decide
theorem addAC : Statement .addAC := by unfold Statement; decide
theorem addAD : Statement .addAD := by unfold Statement; decide
theorem addAE : Statement .addAE := by unfold Statement; decide
theorem addAH : Statement .addAH := by unfold Statement; decide
theorem addAL : Statement .addAL := by unfold Statement; decide
theorem addAIndHL : Statement .addAIndHL := by unfold Statement; decide
theorem addAA : Statement .addAA := by unfold Statement; decide
theorem addAN8 : Statement .addAN8 := by unfold Statement; decide
theorem adcAB : Statement .adcAB := by unfold Statement; decide
theorem adcAC : Statement .adcAC := by unfold Statement; decide
theorem adcAD : Statement .adcAD := by unfold Statement; decide
theorem adcAE : Statement .adcAE := by unfold Statement; decide
theorem adcAH : Statement .adcAH := by unfold Statement; decide
theorem adcAL : Statement .adcAL := by unfold Statement; decide
theorem adcAIndHL : Statement .adcAIndHL := by unfold Statement; decide
theorem adcAA : Statement .adcAA := by unfold Statement; decide
theorem adcAN8 : Statement .adcAN8 := by unfold Statement; decide
theorem subAB : Statement .subAB := by unfold Statement; decide
theorem subAC : Statement .subAC := by unfold Statement; decide
theorem subAD : Statement .subAD := by unfold Statement; decide
theorem subAE : Statement .subAE := by unfold Statement; decide
theorem subAH : Statement .subAH := by unfold Statement; decide
theorem subAL : Statement .subAL := by unfold Statement; decide
theorem subAIndHL : Statement .subAIndHL := by unfold Statement; decide
theorem subAA : Statement .subAA := by unfold Statement; decide
theorem subAN8 : Statement .subAN8 := by unfold Statement; decide
theorem sbcAB : Statement .sbcAB := by unfold Statement; decide
theorem sbcAC : Statement .sbcAC := by unfold Statement; decide
theorem sbcAD : Statement .sbcAD := by unfold Statement; decide
theorem sbcAE : Statement .sbcAE := by unfold Statement; decide
theorem sbcAH : Statement .sbcAH := by unfold Statement; decide
theorem sbcAL : Statement .sbcAL := by unfold Statement; decide
theorem sbcAIndHL : Statement .sbcAIndHL := by unfold Statement; decide
theorem sbcAA : Statement .sbcAA := by unfold Statement; decide
theorem sbcAN8 : Statement .sbcAN8 := by unfold Statement; decide

/-- The family's statement for every instruction. -/
theorem all (i : Instr) : Statement i := by
  cases i
  case addAB => exact addAB
  case addAC => exact addAC
  case addAD => exact addAD
  case addAE => exact addAE
  case addAH => exact addAH
  case addAL => exact addAL
  case addAIndHL => exact addAIndHL
  case addAA => exact addAA
  case addAN8 => exact addAN8
  case adcAB => exact adcAB
  case adcAC => exact adcAC
  case adcAD => exact adcAD
  case adcAE => exact adcAE
  case adcAH => exact adcAH
  case adcAL => exact adcAL
  case adcAIndHL => exact adcAIndHL
  case adcAA => exact adcAA
  case adcAN8 => exact adcAN8
  case subAB => exact subAB
  case subAC => exact subAC
  case subAD => exact subAD
  case subAE => exact subAE
  case subAH => exact subAH
  case subAL => exact subAL
  case subAIndHL => exact subAIndHL
  case subAA => exact subAA
  case subAN8 => exact subAN8
  case sbcAB => exact sbcAB
  case sbcAC => exact sbcAC
  case sbcAD => exact sbcAD
  case sbcAE => exact sbcAE
  case sbcAH => exact sbcAH
  case sbcAL => exact sbcAL
  case sbcAIndHL => exact sbcAIndHL
  case sbcAA => exact sbcAA
  case sbcAN8 => exact sbcAN8

end Sys2Proof.Laws.Encoding
end

