-- ==== Sys2Proof/Laws/Decode.lean ====
section
/-! SUPPORT. The decode table and the encoder's opcode bytes are inverse to each other, and the decoder's answer to a sequence whose first byte decodes. -/

namespace Sys2Proof.Laws

/-- The opcode byte that the formats give an instruction is the byte of its row. -/
theorem decode_opcode (i : Instr) : decode i.opcode = some i := by
  cases i <;> rfl

/-- A byte that decodes is the opcode byte of the instruction it decodes to. -/
theorem opcode_of_decode (opcode : Byte) (i : Instr) (h : decode opcode = some i) : opcode = i.opcode := by
  have all : ∀ b : Byte, ∀ j ∈ decode b, b = j.opcode := by decide +kernel
  exact all opcode i h

theorem decodeStream_one (i : Instr) (h : i.takesImmediate = false) (opcode : Byte) (hd : decode opcode = some i)
    (rest : List Byte) : decodeStream (opcode :: rest) = .ok (⟨i, none⟩, rest) := by
  simp [decodeStream, hd, h]

theorem decodeStream_two (i : Instr) (h : i.takesImmediate = true) (opcode : Byte) (hd : decode opcode = some i)
    (imm : Byte) (rest : List Byte) : decodeStream (opcode :: imm :: rest) = .ok (⟨i, some imm⟩, rest) := by
  simp [decodeStream, hd, h]

end Sys2Proof.Laws
end

