-- ==== Sys2Proof/Laws/Flags.lean ====
section
/-! SUPPORT. The laws of the flags and of the helpers the arithmetic unit is made of. -/

namespace Sys2Proof.Laws

open Sys2Proof.Machine

theorem unpack_pack (x : Flags) : Flags.unpack x.pack = x := by
  obtain ⟨z, n, h, c⟩ := x
  cases z <;> cases n <;> cases h <;> cases c <;> rfl

theorem pack_unpack (v : Byte) : (Flags.unpack v).pack = v &&& 0xF0#8 := by
  revert v
  decide

theorem lowNibble_eq_mod (v : Byte) : lowNibble v = v.toNat % 16 := by
  unfold lowNibble
  rw [BitVec.toNat_and]
  exact Nat.and_two_pow_sub_one_eq_mod v.toNat 4

theorem intermediate_toNat (operand : Byte) (cin : Bool) :
    (intermediate operand cin).toNat = (operand.toNat + cin.toNat) % 256 := by
  simp [intermediate, foldedSum]

end Sys2Proof.Laws
end

