-- ==== Sys2Proof/Laws/State.lean ====
section
/-! SUPPORT. One lemma per field of the state per update, so that no proof unfolds a record update. -/

namespace Sys2Proof.Machine

/-! `setFlags` -/

@[simp] theorem State.setFlags_a (s : State) (x : Flags) : (s.setFlags x).a = s.a := rfl
@[simp] theorem State.setFlags_b (s : State) (x : Flags) : (s.setFlags x).b = s.b := rfl
@[simp] theorem State.setFlags_c (s : State) (x : Flags) : (s.setFlags x).c = s.c := rfl
@[simp] theorem State.setFlags_d (s : State) (x : Flags) : (s.setFlags x).d = s.d := rfl
@[simp] theorem State.setFlags_e (s : State) (x : Flags) : (s.setFlags x).e = s.e := rfl
@[simp] theorem State.setFlags_h (s : State) (x : Flags) : (s.setFlags x).h = s.h := rfl
@[simp] theorem State.setFlags_l (s : State) (x : Flags) : (s.setFlags x).l = s.l := rfl
@[simp] theorem State.setFlags_flags (s : State) (x : Flags) : (s.setFlags x).flags = x := rfl
@[simp] theorem State.setFlags_sp (s : State) (x : Flags) : (s.setFlags x).sp = s.sp := rfl
@[simp] theorem State.setFlags_pc (s : State) (x : Flags) : (s.setFlags x).pc = s.pc := rfl
@[simp] theorem State.setFlags_run (s : State) (x : Flags) : (s.setFlags x).run = s.run := rfl
@[simp] theorem State.setFlags_mem (s : State) (x : Flags) : (s.setFlags x).mem = s.mem := rfl
@[simp] theorem State.setFlags_busLog (s : State) (x : Flags) : (s.setFlags x).busLog = s.busLog := rfl
@[simp] theorem State.setFlags_params (s : State) (x : Flags) : (s.setFlags x).params = s.params := rfl

/-! `setSp` -/

@[simp] theorem State.setSp_a (s : State) (v : Word) : (s.setSp v).a = s.a := rfl
@[simp] theorem State.setSp_b (s : State) (v : Word) : (s.setSp v).b = s.b := rfl
@[simp] theorem State.setSp_c (s : State) (v : Word) : (s.setSp v).c = s.c := rfl
@[simp] theorem State.setSp_d (s : State) (v : Word) : (s.setSp v).d = s.d := rfl
@[simp] theorem State.setSp_e (s : State) (v : Word) : (s.setSp v).e = s.e := rfl
@[simp] theorem State.setSp_h (s : State) (v : Word) : (s.setSp v).h = s.h := rfl
@[simp] theorem State.setSp_l (s : State) (v : Word) : (s.setSp v).l = s.l := rfl
@[simp] theorem State.setSp_flags (s : State) (v : Word) : (s.setSp v).flags = s.flags := rfl
@[simp] theorem State.setSp_sp (s : State) (v : Word) : (s.setSp v).sp = v := rfl
@[simp] theorem State.setSp_pc (s : State) (v : Word) : (s.setSp v).pc = s.pc := rfl
@[simp] theorem State.setSp_run (s : State) (v : Word) : (s.setSp v).run = s.run := rfl
@[simp] theorem State.setSp_mem (s : State) (v : Word) : (s.setSp v).mem = s.mem := rfl
@[simp] theorem State.setSp_busLog (s : State) (v : Word) : (s.setSp v).busLog = s.busLog := rfl
@[simp] theorem State.setSp_params (s : State) (v : Word) : (s.setSp v).params = s.params := rfl

/-! `setPc` -/

@[simp] theorem State.setPc_a (s : State) (v : Word) : (s.setPc v).a = s.a := rfl
@[simp] theorem State.setPc_b (s : State) (v : Word) : (s.setPc v).b = s.b := rfl
@[simp] theorem State.setPc_c (s : State) (v : Word) : (s.setPc v).c = s.c := rfl
@[simp] theorem State.setPc_d (s : State) (v : Word) : (s.setPc v).d = s.d := rfl
@[simp] theorem State.setPc_e (s : State) (v : Word) : (s.setPc v).e = s.e := rfl
@[simp] theorem State.setPc_h (s : State) (v : Word) : (s.setPc v).h = s.h := rfl
@[simp] theorem State.setPc_l (s : State) (v : Word) : (s.setPc v).l = s.l := rfl
@[simp] theorem State.setPc_flags (s : State) (v : Word) : (s.setPc v).flags = s.flags := rfl
@[simp] theorem State.setPc_sp (s : State) (v : Word) : (s.setPc v).sp = s.sp := rfl
@[simp] theorem State.setPc_pc (s : State) (v : Word) : (s.setPc v).pc = v := rfl
@[simp] theorem State.setPc_run (s : State) (v : Word) : (s.setPc v).run = s.run := rfl
@[simp] theorem State.setPc_mem (s : State) (v : Word) : (s.setPc v).mem = s.mem := rfl
@[simp] theorem State.setPc_busLog (s : State) (v : Word) : (s.setPc v).busLog = s.busLog := rfl
@[simp] theorem State.setPc_params (s : State) (v : Word) : (s.setPc v).params = s.params := rfl

/-! `setRun` -/

@[simp] theorem State.setRun_a (s : State) (r : RunState) : (s.setRun r).a = s.a := rfl
@[simp] theorem State.setRun_b (s : State) (r : RunState) : (s.setRun r).b = s.b := rfl
@[simp] theorem State.setRun_c (s : State) (r : RunState) : (s.setRun r).c = s.c := rfl
@[simp] theorem State.setRun_d (s : State) (r : RunState) : (s.setRun r).d = s.d := rfl
@[simp] theorem State.setRun_e (s : State) (r : RunState) : (s.setRun r).e = s.e := rfl
@[simp] theorem State.setRun_h (s : State) (r : RunState) : (s.setRun r).h = s.h := rfl
@[simp] theorem State.setRun_l (s : State) (r : RunState) : (s.setRun r).l = s.l := rfl
@[simp] theorem State.setRun_flags (s : State) (r : RunState) : (s.setRun r).flags = s.flags := rfl
@[simp] theorem State.setRun_sp (s : State) (r : RunState) : (s.setRun r).sp = s.sp := rfl
@[simp] theorem State.setRun_pc (s : State) (r : RunState) : (s.setRun r).pc = s.pc := rfl
@[simp] theorem State.setRun_run (s : State) (r : RunState) : (s.setRun r).run = r := rfl
@[simp] theorem State.setRun_mem (s : State) (r : RunState) : (s.setRun r).mem = s.mem := rfl
@[simp] theorem State.setRun_busLog (s : State) (r : RunState) : (s.setRun r).busLog = s.busLog := rfl
@[simp] theorem State.setRun_params (s : State) (r : RunState) : (s.setRun r).params = s.params := rfl

/-! `setMem` -/

@[simp] theorem State.setMem_a (s : State) (m : Memory) : (s.setMem m).a = s.a := rfl
@[simp] theorem State.setMem_b (s : State) (m : Memory) : (s.setMem m).b = s.b := rfl
@[simp] theorem State.setMem_c (s : State) (m : Memory) : (s.setMem m).c = s.c := rfl
@[simp] theorem State.setMem_d (s : State) (m : Memory) : (s.setMem m).d = s.d := rfl
@[simp] theorem State.setMem_e (s : State) (m : Memory) : (s.setMem m).e = s.e := rfl
@[simp] theorem State.setMem_h (s : State) (m : Memory) : (s.setMem m).h = s.h := rfl
@[simp] theorem State.setMem_l (s : State) (m : Memory) : (s.setMem m).l = s.l := rfl
@[simp] theorem State.setMem_flags (s : State) (m : Memory) : (s.setMem m).flags = s.flags := rfl
@[simp] theorem State.setMem_sp (s : State) (m : Memory) : (s.setMem m).sp = s.sp := rfl
@[simp] theorem State.setMem_pc (s : State) (m : Memory) : (s.setMem m).pc = s.pc := rfl
@[simp] theorem State.setMem_run (s : State) (m : Memory) : (s.setMem m).run = s.run := rfl
@[simp] theorem State.setMem_mem (s : State) (m : Memory) : (s.setMem m).mem = m := rfl
@[simp] theorem State.setMem_busLog (s : State) (m : Memory) : (s.setMem m).busLog = s.busLog := rfl
@[simp] theorem State.setMem_params (s : State) (m : Memory) : (s.setMem m).params = s.params := rfl

/-! `note` -/

@[simp] theorem State.note_a (s : State) (x : BusAccess) : (s.note x).a = s.a := rfl
@[simp] theorem State.note_b (s : State) (x : BusAccess) : (s.note x).b = s.b := rfl
@[simp] theorem State.note_c (s : State) (x : BusAccess) : (s.note x).c = s.c := rfl
@[simp] theorem State.note_d (s : State) (x : BusAccess) : (s.note x).d = s.d := rfl
@[simp] theorem State.note_e (s : State) (x : BusAccess) : (s.note x).e = s.e := rfl
@[simp] theorem State.note_h (s : State) (x : BusAccess) : (s.note x).h = s.h := rfl
@[simp] theorem State.note_l (s : State) (x : BusAccess) : (s.note x).l = s.l := rfl
@[simp] theorem State.note_flags (s : State) (x : BusAccess) : (s.note x).flags = s.flags := rfl
@[simp] theorem State.note_sp (s : State) (x : BusAccess) : (s.note x).sp = s.sp := rfl
@[simp] theorem State.note_pc (s : State) (x : BusAccess) : (s.note x).pc = s.pc := rfl
@[simp] theorem State.note_run (s : State) (x : BusAccess) : (s.note x).run = s.run := rfl
@[simp] theorem State.note_mem (s : State) (x : BusAccess) : (s.note x).mem = s.mem := rfl
@[simp] theorem State.note_busLog (s : State) (x : BusAccess) : (s.note x).busLog = s.busLog ++ [x] := rfl
@[simp] theorem State.note_params (s : State) (x : BusAccess) : (s.note x).params = s.params := rfl

/-! `setReg` -/

@[simp] theorem State.setReg_flags (s : State) (r : Reg8) (v : Byte) : (s.setReg r v).flags = s.flags := by cases r <;> rfl
@[simp] theorem State.setReg_sp (s : State) (r : Reg8) (v : Byte) : (s.setReg r v).sp = s.sp := by cases r <;> rfl
@[simp] theorem State.setReg_pc (s : State) (r : Reg8) (v : Byte) : (s.setReg r v).pc = s.pc := by cases r <;> rfl
@[simp] theorem State.setReg_run (s : State) (r : Reg8) (v : Byte) : (s.setReg r v).run = s.run := by cases r <;> rfl
@[simp] theorem State.setReg_mem (s : State) (r : Reg8) (v : Byte) : (s.setReg r v).mem = s.mem := by cases r <;> rfl
@[simp] theorem State.setReg_busLog (s : State) (r : Reg8) (v : Byte) : (s.setReg r v).busLog = s.busLog := by cases r <;> rfl
@[simp] theorem State.setReg_params (s : State) (r : Reg8) (v : Byte) : (s.setReg r v).params = s.params := by cases r <;> rfl

@[simp] theorem State.getReg_setReg_same (s : State) (r : Reg8) (v : Byte) : (s.setReg r v).getReg r = v := by
  cases r <;> rfl

theorem State.getReg_setReg_ne (s : State) (r q : Reg8) (v : Byte) (h : q ≠ r) : (s.setReg r v).getReg q = s.getReg q := by
  cases r <;> cases q <;> first | rfl | exact absurd rfl h

@[simp] theorem State.getReg_setFlags (s : State) (x : Flags) (r : Reg8) : (s.setFlags x).getReg r = s.getReg r := by cases r <;> rfl
@[simp] theorem State.getReg_setSp (s : State) (v : Word) (r : Reg8) : (s.setSp v).getReg r = s.getReg r := by cases r <;> rfl
@[simp] theorem State.getPair_setSp (s : State) (v : Word) (p : Pair) : (s.setSp v).getPair p = s.getPair p := by cases p <;> rfl
@[simp] theorem State.getReg_setPc (s : State) (v : Word) (r : Reg8) : (s.setPc v).getReg r = s.getReg r := by cases r <;> rfl
@[simp] theorem State.getPair_setPc (s : State) (v : Word) (p : Pair) : (s.setPc v).getPair p = s.getPair p := by cases p <;> rfl
@[simp] theorem State.getReg_setRun (s : State) (x : RunState) (r : Reg8) : (s.setRun x).getReg r = s.getReg r := by cases r <;> rfl
@[simp] theorem State.getPair_setRun (s : State) (r : RunState) (p : Pair) : (s.setRun r).getPair p = s.getPair p := by cases p <;> rfl
@[simp] theorem State.getReg_setMem (s : State) (m : Memory) (r : Reg8) : (s.setMem m).getReg r = s.getReg r := by cases r <;> rfl
@[simp] theorem State.getPair_setMem (s : State) (m : Memory) (p : Pair) : (s.setMem m).getPair p = s.getPair p := by cases p <;> rfl
@[simp] theorem State.getReg_note (s : State) (x : BusAccess) (r : Reg8) : (s.note x).getReg r = s.getReg r := by cases r <;> rfl
@[simp] theorem State.getPair_note (s : State) (x : BusAccess) (p : Pair) : (s.note x).getPair p = s.getPair p := by cases p <;> rfl

/-! `setReg` of the accumulator, the one register an instruction writes -/

@[simp] theorem State.setReg_a_a (s : State) (v : Byte) : (s.setReg .a v).a = v := rfl
@[simp] theorem State.setReg_a_b (s : State) (v : Byte) : (s.setReg .a v).b = s.b := rfl
@[simp] theorem State.setReg_a_c (s : State) (v : Byte) : (s.setReg .a v).c = s.c := rfl
@[simp] theorem State.setReg_a_d (s : State) (v : Byte) : (s.setReg .a v).d = s.d := rfl
@[simp] theorem State.setReg_a_e (s : State) (v : Byte) : (s.setReg .a v).e = s.e := rfl
@[simp] theorem State.setReg_a_h (s : State) (v : Byte) : (s.setReg .a v).h = s.h := rfl
@[simp] theorem State.setReg_a_l (s : State) (v : Byte) : (s.setReg .a v).l = s.l := rfl

/-! The shared operations as record updates -/

theorem State.commitPc_eq (s : State) (len : Nat) : s.commitPc len = s.setPc (nextPc s.pc len) := rfl

theorem State.raiseDecodeFailure_eq (s : State) (opcode : Byte) :
    s.raiseDecodeFailure opcode = s.setRun (.halted ⟨1#8, opcode, s.pc, none⟩) := rfl

theorem State.raiseUnimplemented_eq (s : State) (opcode : Byte) (op : SubOp) :
    s.raiseUnimplemented opcode op = s.setRun (.halted ⟨2#8, opcode, s.pc, some op⟩) := rfl

@[simp] theorem State.resetCore_mem (s : State) : s.resetCore.mem = s.mem := rfl
@[simp] theorem State.resetCore_busLog (s : State) : s.resetCore.busLog = s.busLog := rfl
@[simp] theorem State.resetCore_params (s : State) : s.resetCore.params = s.params := rfl
@[simp] theorem State.resetCore_run (s : State) : s.resetCore.run = .running := rfl

end Sys2Proof.Machine
end

