-- ==== Sys2Proof/Laws/Memory.lean ====
section
/-! SUPPORT. The laws of the plain memory: what a lookup reads after a write, and that every operation keeps the canonical form. -/

namespace Sys2Proof.Laws

open Sys2Proof.Machine

theorem Memory.lookup_write_same (m : Memory) (a : Nat) (v : Byte) : (Memory.write m a v).lookup a = some v := by
  induction m with
  | nil => simp [Memory.write, Memory.lookup]
  | cons x m ih =>
    obtain ⟨k, w⟩ := x
    by_cases h1 : a < k
    · simp [Memory.write, Memory.lookup, h1]
    · by_cases h2 : a = k
      · simp [Memory.write, Memory.lookup, h2]
      · simp [Memory.write, Memory.lookup, h1, h2, Ne.symm h2, ih]

theorem Memory.lookup_write_ne (m : Memory) (a b : Nat) (v : Byte) (h : b ≠ a) :
    (Memory.write m a v).lookup b = m.lookup b := by
  induction m with
  | nil => simp [Memory.write, Memory.lookup, h.symm]
  | cons x m ih =>
    obtain ⟨k, w⟩ := x
    by_cases h1 : a < k
    · simp [Memory.write, Memory.lookup, h1, h.symm]
    · by_cases h2 : a = k
      · subst h2
        simp [Memory.write, Memory.lookup, h.symm]
      · simp [Memory.write, Memory.lookup, h1, h2, ih]

/-- The addresses after a write: the written one and those of before. -/
theorem Memory.mem_write (m : Memory) (a : Nat) (v : Byte) (x : Host.Cell) (h : x ∈ Memory.write m a v) :
    x = (a, v) ∨ x ∈ m := by
  induction m with
  | nil => simpa [Memory.write] using h
  | cons y m ih =>
    obtain ⟨k, w⟩ := y
    by_cases h1 : a < k
    · simpa [Memory.write, h1] using h
    · by_cases h2 : a = k
      · subst h2
        simp [Memory.write] at h
        rcases h with h | h
        · exact .inl h
        · exact .inr (List.mem_cons_of_mem _ h)
      · simp [Memory.write, h1, h2] at h
        rcases h with h | h
        · exact .inr (h ▸ List.mem_cons_self)
        · exact (ih h).imp_right (List.mem_cons_of_mem _)

/-- A write inside the address space keeps the canonical form. -/
theorem Memory.write_wf (m : Memory) (a : Nat) (v : Byte) (hm : Memory.wf m) (ha : a < 65536) :
    Memory.wf (Memory.write m a v) := by
  refine ⟨?_, ?_⟩
  · have hp := hm.1
    clear hm
    induction m with
    | nil => simp [Memory.write]
    | cons x m ih =>
      obtain ⟨k, w⟩ := x
      rw [List.pairwise_cons] at hp
      by_cases h1 : a < k
      · simp only [Memory.write, h1, if_true, List.pairwise_cons]
        refine ⟨?_, hp.1, hp.2⟩
        intro y hy
        rcases List.mem_cons.mp hy with rfl | hy
        · exact h1
        · exact lt_trans h1 (hp.1 y hy)
      · by_cases h2 : a = k
        · subst h2
          simp only [Memory.write, lt_irrefl, if_false, if_true, List.pairwise_cons]
          exact ⟨hp.1, hp.2⟩
        · simp only [Memory.write, h1, h2, if_false, List.pairwise_cons]
          refine ⟨?_, ih hp.2⟩
          intro y hy
          rcases Memory.mem_write m a v y hy with rfl | hy
          · simp only
            omega
          · exact hp.1 y hy
  · intro x hx
    rcases Memory.mem_write m a v x hx with rfl | hx
    · exact ha
    · exact hm.2 x hx

/-- A release keeps the canonical form. -/
theorem Memory.erase_wf (m : Memory) (a : Nat) (hm : Memory.wf m) : Memory.wf (Memory.erase m a) :=
  ⟨hm.1.filter _, fun x hx => hm.2 x (List.mem_of_mem_filter hx)⟩

theorem Memory.lookup_erase (m : Memory) (a b : Nat) :
    (Memory.erase m a).lookup b = if b = a then none else m.lookup b := by
  induction m with
  | nil => simp [Memory.erase, Memory.lookup]
  | cons x m ih =>
    obtain ⟨k, w⟩ := x
    unfold Memory.erase at ih ⊢
    by_cases h : k = a
    · subst h
      by_cases hb : b = k
      · simpa [hb] using ih
      · simpa [Memory.lookup, hb, Ne.symm hb] using ih
    · by_cases hb : k = b
      · subst hb
        simp [Memory.lookup, h]
      · simpa [Memory.lookup, h, hb] using ih

/-- The memory of the reset state is in canonical form. -/
theorem Memory.reset_wf : Memory.wf State.reset.mem := by
  decide

/-- The platform's write keeps the canonical form. -/
theorem Memory.platformWrite_wf (s : State) (a : Word) (v : Byte) (h : Memory.wf s.mem) :
    Memory.wf (s.platformWrite a v).mem :=
  Memory.write_wf s.mem a.toNat v h a.isLt

/-- The platform's release keeps the canonical form. -/
theorem Memory.platformRelease_wf (s : State) (a : Word) (h : Memory.wf s.mem) :
    Memory.wf (s.platformRelease a).mem :=
  Memory.erase_wf s.mem a.toNat h

/-- The core's `write_byte` keeps the canonical form. -/
theorem Memory.memWrite_wf (s : State) (a : Word) (v : Byte) (h : Memory.wf s.mem) :
    Memory.wf (s.memWrite a v).mem :=
  Memory.platformWrite_wf (s.note (.write a v)) a v h

/-- The placing of an instruction keeps the canonical form. -/
theorem Memory.placeInstruction_wf (s : State) (x y : Byte) (h : Memory.wf s.mem) :
    Memory.wf (s.placeInstruction x y).mem :=
  Memory.platformWrite_wf _ _ _ (Memory.platformWrite_wf s _ _ h)

/-- What stands at an address after the platform's write. -/
theorem peek_platformWrite (s : State) (a b : Word) (v : Byte) :
    (s.platformWrite a v).peek b = if b = a then some v else s.peek b := by
  by_cases h : b = a
  · subst h
    simp [State.platformWrite, State.peek, Memory.lookup_write_same]
  · have hn : b.toNat ≠ a.toNat := fun e => h (BitVec.eq_of_toNat_eq e)
    simp [State.platformWrite, State.peek, h, Memory.lookup_write_ne _ _ _ _ hn]

/-- What stands at an address after the platform's release. -/
theorem peek_platformRelease (s : State) (a b : Word) :
    (s.platformRelease a).peek b = if b = a then none else s.peek b := by
  by_cases h : b = a
  · subst h
    simp [State.platformRelease, State.peek, Memory.lookup_erase]
  · have hn : b.toNat ≠ a.toNat := fun e => h (BitVec.eq_of_toNat_eq e)
    simp only [State.platformRelease, State.peek, State.setMem_mem, Memory.lookup_erase, if_neg hn, if_neg h]

end Sys2Proof.Laws
end

