-- ==== Sys2Proof/Laws/Ops.lean ====
section
/-! SUPPORT. What each shared operation can do, said once: the operand fetch, the course of an executed and of a gated instruction, the meaning of every
instruction as one of the two, and the cases of a step. -/

namespace Sys2Proof.Laws

open Sys2Proof.Machine

theorem nextPc_one (pc : Word) : nextPc pc 1 = pc + 1#16 := rfl

theorem nextPc_two (pc : Word) : nextPc pc 2 = pc + 2#16 := rfl

theorem nextPc_toNat (pc : Word) (len : Nat) : (nextPc pc len).toNat = (pc.toNat + len) % 65536 := by
  simp [nextPc, BitVec.toNat_add]

/-- The concatenation of two bytes as a number: the first is the high byte. -/
theorem append_toNat (x y : Byte) : (x ++ y).toNat = x.toNat * 256 + y.toNat := by
  rw [BitVec.toNat_append]
  have h := Nat.shiftLeft_add_eq_or_of_lt y.isLt x.toNat
  rw [Nat.shiftLeft_eq] at h
  rw [Nat.shiftLeft_eq, ← h]

/-- The accesses that an operand fetch makes. -/
def operandAccesses (s : State) : Target → List BusAccess
  | .reg _ => []
  | .hl => [.read (s.getPair .hl)]
  | .d8 => [.read (nextPc s.pc 1)]

/-- An operand fetch changes nothing but the list of accesses. -/
theorem fetchOperand_state (s : State) (t : Target) :
    (s.fetchOperand t).2 = { s with busLog := s.busLog ++ operandAccesses s t } := by
  cases t <;> simp [State.fetchOperand, operandAccesses, State.memRead, State.note]

/-- Everything the course of an executed instruction does. -/
theorem executeArith_eq (s : State) (op : Op) (t : Target) :
    s.executeArith op t =
      { s with
        a := (alu op s.a (s.fetchOperand t).1 s.flags.c).res
        flags := (alu op s.a (s.fetchOperand t).1 s.flags.c).flags
        pc := nextPc s.pc t.length
        busLog := s.busLog ++ operandAccesses s t } := by
  simp [State.executeArith, fetchOperand_state, State.writeBack, State.commitPc, State.setPc, State.setFlags, State.setReg]

/-- The gate of a build with subtraction: the instruction executes. -/
theorem executeSubtract_symmetric (s : State) (opcode : Byte) (op : SubOp) (t : Target)
    (h : s.params.subtractMode = .symmetric) : s.executeSubtract opcode op t = s.executeArith op.toOp t := by
  simp [State.executeSubtract, h]

/-- The gate of a build without subtraction under the policy `fault`: the instruction raises Unimplemented. -/
theorem executeSubtract_fault (s : State) (opcode : Byte) (op : SubOp) (t : Target)
    (h : s.params.subtractMode = .unimplemented) (hp : s.params.unimplementedPolicy = .fault) :
    s.executeSubtract opcode op t = s.raiseUnimplemented opcode op := by
  simp [State.executeSubtract, h, hp]

/-- The gate of a build without subtraction under the policy `placeholder`: nothing changes. -/
theorem executeSubtract_placeholder (s : State) (opcode : Byte) (op : SubOp) (t : Target)
    (h : s.params.subtractMode = .unimplemented) (hp : s.params.unimplementedPolicy = .placeholder) :
    s.executeSubtract opcode op t = s := by
  simp [State.executeSubtract, h, hp]

/-- ADD and ADC execute. -/
theorem exec_add_adc (i : Instr) (s : State) (h : i.op = .add ∨ i.op = .adc) :
    exec i s = .next (s.executeArith i.op i.target) := by
  cases i <;> first | rfl | (exfalso; revert h; decide)

/-- SUB and SBC are gated, each with its own opcode byte in the record. -/
theorem exec_sub_sbc (i : Instr) (s : State) (op : SubOp) (h : i.op = op.toOp) :
    exec i s = .next (s.executeSubtract i.opcode op i.target) := by
  cases op <;> cases i <;> first | rfl | (exfalso; revert h; decide)

/-- A gated operation of a build without subtraction is not implemented, and those are all that are not. -/
theorem implements_eq_false (p : Params) (o : Op) :
    p.implements o = false ↔ p.subtractMode = .unimplemented ∧ ∃ op : SubOp, o = op.toOp := by
  constructor
  · intro h
    cases o with
    | add => cases h
    | adc => cases h
    | sub => exact ⟨by cases hm : p.subtractMode <;> simp_all [Params.implements], .sub, rfl⟩
    | sbc => exact ⟨by cases hm : p.subtractMode <;> simp_all [Params.implements], .sbc, rfl⟩
  · rintro ⟨hm, op, rfl⟩
    cases op <;> simp [SubOp.toOp, Params.implements, hm]

/-- An operation that is implemented is an addition, or the build is the symmetric one. -/
theorem implements_eq_true (p : Params) (o : Op) (h : p.implements o = true) :
    (o = .add ∨ o = .adc) ∨ p.subtractMode = .symmetric ∧ ∃ op : SubOp, o = op.toOp := by
  cases o with
  | add => exact .inl (.inl rfl)
  | adc => exact .inl (.inr rfl)
  | sub => exact .inr ⟨by simpa [Params.implements] using h, .sub, rfl⟩
  | sbc => exact .inr ⟨by simpa [Params.implements] using h, .sbc, rfl⟩

/-- An implemented instruction executes. -/
theorem exec_of_implements (i : Instr) (s : State) (h : s.params.implements i.op = true) :
    exec i s = .next (s.executeArith i.op i.target) := by
  rcases implements_eq_true s.params i.op h with ha | ⟨hm, op, ho⟩
  · exact exec_add_adc i s ha
  · rw [exec_sub_sbc i s op ho, executeSubtract_symmetric s _ op _ hm, ho]

/-- The inversion of `exec`: it always answers a next state, and that state is one of three. -/
theorem exec_cases (i : Instr) (s : State) :
    (s.params.implements i.op = true ∧ exec i s = .next (s.executeArith i.op i.target)) ∨
      (∃ op, i.op = SubOp.toOp op ∧ s.params.subtractMode = .unimplemented ∧ s.params.unimplementedPolicy = .fault ∧
        exec i s = .next (s.raiseUnimplemented i.opcode op)) ∨
      (s.params.implements i.op = false ∧ s.params.unimplementedPolicy = .placeholder ∧ exec i s = .next s) := by
  cases hi : s.params.implements i.op with
  | true => exact .inl ⟨rfl, exec_of_implements i s hi⟩
  | false =>
    obtain ⟨hm, op, ho⟩ := (implements_eq_false s.params i.op).mp hi
    have he := exec_sub_sbc i s op ho
    cases hp : s.params.unimplementedPolicy with
    | fault => exact .inr (.inl ⟨op, ho, hm, rfl, by rw [he, executeSubtract_fault s _ op _ hm hp]⟩)
    | placeholder => exact .inr (.inr ⟨rfl, rfl, by rw [he, executeSubtract_placeholder s _ op _ hm hp]⟩)

/-- A Running core's step, without the test of the run state. -/
theorem step_of_running (s : State) (h : s.run = .running) :
    step s =
      match decode s.fetchOpcode.1 with
      | none => .next (s.fetchOpcode.2.raiseDecodeFailure s.fetchOpcode.1)
      | some i => exec i s.fetchOpcode.2 := by
  cases hd : decode s.fetchOpcode.1 <;> simp [step, h, hd]

/-- The inversion of `step`: a step that answers a next state started Running, and raised DecodeFailure or ran its instruction. -/
theorem step_cases (s t : State) (h : step s = .next t) :
    s.run = .running ∧
      ((decode s.fetchOpcode.1 = none ∧ t = s.fetchOpcode.2.raiseDecodeFailure s.fetchOpcode.1) ∨
        ∃ i, decode s.fetchOpcode.1 = some i ∧ exec i s.fetchOpcode.2 = .next t) := by
  unfold step at h
  split at h
  · cases h
  · rename_i hr
    refine ⟨hr, ?_⟩
    split at h
    · rename_i hd
      injection h with h
      exact .inl ⟨hd, h.symm⟩
    · rename_i i hd
      exact .inr ⟨i, hd, h⟩

end Sys2Proof.Laws
end

