-- ==== Sys2Proof/Tests/Slice0.lean ====
section
/-! SUPPORT. The model's own tests: ill-formed terms refused, every row's word written out bit by bit from the formats F1 and F2 and decoded, one step per
instruction on the worked example of its rule, the fatal outcomes, and a witness for the hypotheses of every statement that has any. -/

namespace Sys2Proof.Tests

open Sys2Proof.Machine Sys2Proof.Statements

/-! ## WellFormed: the check refuses what the encoding cannot express (spec/30_encoding.md R70) -/

theorem test_wellFormed_refuses_immediate_on_register_form : ¬AsmInstr.WellFormed ⟨.addAB, some 0x23#8⟩ := by decide

theorem test_wellFormed_refuses_missing_immediate : ¬AsmInstr.WellFormed ⟨.addAN8, none⟩ := by decide

theorem test_wellFormed_accepts_both_lengths :
    AsmInstr.WellFormed ⟨.addAB, none⟩ ∧ AsmInstr.WellFormed ⟨.addAN8, some 0x23#8⟩ := by decide

/-! ## Decode: every row's first byte, written out as `10 ooo rrr` or `11 ooo 110` from spec/30_encoding.md R71 to R73 -/

theorem test_decode_addAB : decode 0b10000000#8 = some .addAB := by decide
theorem test_decode_addAC : decode 0b10000001#8 = some .addAC := by decide
theorem test_decode_addAD : decode 0b10000010#8 = some .addAD := by decide
theorem test_decode_addAE : decode 0b10000011#8 = some .addAE := by decide
theorem test_decode_addAH : decode 0b10000100#8 = some .addAH := by decide
theorem test_decode_addAL : decode 0b10000101#8 = some .addAL := by decide
theorem test_decode_addAIndHL : decode 0b10000110#8 = some .addAIndHL := by decide
theorem test_decode_addAA : decode 0b10000111#8 = some .addAA := by decide
theorem test_decode_addAN8 : decode 0b11000110#8 = some .addAN8 := by decide
theorem test_decode_adcAB : decode 0b10001000#8 = some .adcAB := by decide
theorem test_decode_adcAC : decode 0b10001001#8 = some .adcAC := by decide
theorem test_decode_adcAD : decode 0b10001010#8 = some .adcAD := by decide
theorem test_decode_adcAE : decode 0b10001011#8 = some .adcAE := by decide
theorem test_decode_adcAH : decode 0b10001100#8 = some .adcAH := by decide
theorem test_decode_adcAL : decode 0b10001101#8 = some .adcAL := by decide
theorem test_decode_adcAIndHL : decode 0b10001110#8 = some .adcAIndHL := by decide
theorem test_decode_adcAA : decode 0b10001111#8 = some .adcAA := by decide
theorem test_decode_adcAN8 : decode 0b11001110#8 = some .adcAN8 := by decide
theorem test_decode_subAB : decode 0b10010000#8 = some .subAB := by decide
theorem test_decode_subAC : decode 0b10010001#8 = some .subAC := by decide
theorem test_decode_subAD : decode 0b10010010#8 = some .subAD := by decide
theorem test_decode_subAE : decode 0b10010011#8 = some .subAE := by decide
theorem test_decode_subAH : decode 0b10010100#8 = some .subAH := by decide
theorem test_decode_subAL : decode 0b10010101#8 = some .subAL := by decide
theorem test_decode_subAIndHL : decode 0b10010110#8 = some .subAIndHL := by decide
theorem test_decode_subAA : decode 0b10010111#8 = some .subAA := by decide
theorem test_decode_subAN8 : decode 0b11010110#8 = some .subAN8 := by decide
theorem test_decode_sbcAB : decode 0b10011000#8 = some .sbcAB := by decide
theorem test_decode_sbcAC : decode 0b10011001#8 = some .sbcAC := by decide
theorem test_decode_sbcAD : decode 0b10011010#8 = some .sbcAD := by decide
theorem test_decode_sbcAE : decode 0b10011011#8 = some .sbcAE := by decide
theorem test_decode_sbcAH : decode 0b10011100#8 = some .sbcAH := by decide
theorem test_decode_sbcAL : decode 0b10011101#8 = some .sbcAL := by decide
theorem test_decode_sbcAIndHL : decode 0b10011110#8 = some .sbcAIndHL := by decide
theorem test_decode_sbcAA : decode 0b10011111#8 = some .sbcAA := by decide
theorem test_decode_sbcAN8 : decode 0b11011110#8 = some .sbcAN8 := by decide

theorem test_decode_rejects_prefix : decode 0xCB#8 = none := by decide

theorem test_decode_rejects_compare : decode 0xFE#8 = none := by decide

theorem test_decodeStream_immediate :
    (decodeStream [0xC6#8, 0x23#8, 0x80#8]).toOption = some (⟨.addAN8, some 0x23#8⟩, [0x80#8]) := by decide

theorem test_decodeStream_truncated : (decodeStream [0xDE#8]).toOption = none := by decide

theorem test_decodeTableWord_two_bytes : decodeTableWord 16 0x23C6 = some .addAN8 := by decide

theorem test_decodeTableWord_ignores_bits_above : decodeTableWord 8 0xFF80 = some .addAB := by decide

theorem test_assembly : Instr.assembly .adcAIndHL = "ADC A,(HL)" := by decide

/-! ## The instructions: one step each, on the worked example of its rule in spec/41_add_adc.md or spec/42_sub_sbc.md

The result is read as (a, f, pc) of a next state that is still Running. -/

/-- The accumulator, the packed flags and pc of a next state that is still Running. -/
def summary : Host.Outcome State Fault Refusal → Option (Byte × Byte × Word)
  | .next t => if t.run = .running then some (t.a, t.getF, t.pc) else none
  | .fault _ => none
  | .refused _ => none

/-- The fault record and pc of a next state that is Halted. -/
def haltSummary : Host.Outcome State Fault Refusal → Option (FaultRecord × Word)
  | .next t => t.hostFaultRecord.map (fun r => (r, t.pc))
  | .fault _ => none
  | .refused _ => none

/-- The accesses of a next state. -/
def accesses : Host.Outcome State Fault Refusal → Option (List BusAccess)
  | .next t => some t.busLog
  | .fault _ => none
  | .refused _ => none

/-- A default build at `pc` with these bytes on the bus. -/
def onBus (pc : Word) (mem : Memory) : State :=
  { State.reset with pc := pc, mem := mem }

/-- A symmetric build at `pc` with these bytes on the bus. -/
def symOnBus (pc : Word) (mem : Memory) : State :=
  { onBus pc mem with params := ⟨.symmetric, .fault⟩ }

/-- A development build, under the placeholder policy. -/
def placeholderOnBus (pc : Word) (mem : Memory) : State :=
  { onBus pc mem with params := ⟨.unimplemented, .placeholder⟩ }

theorem test_addAB :
    summary (step { onBus 0x0100#16 [(0x0100, 0x80#8)] with a := 0x3A#8, b := 0xC6#8 }) = some (0x00#8, 0xB0#8, 0x0101#16) := by decide

theorem test_addAC :
    summary (step { onBus 0x0100#16 [(0x0100, 0x81#8)] with a := 0x0F#8, c := 0x01#8 }) = some (0x10#8, 0x20#8, 0x0101#16) := by decide

theorem test_addAD :
    summary (step { onBus 0x0100#16 [(0x0100, 0x82#8)] with a := 0x80#8, d := 0x80#8 }) = some (0x00#8, 0x90#8, 0x0101#16) := by decide

theorem test_addAE :
    summary (step { onBus 0x0100#16 [(0x0100, 0x83#8)] with a := 0x12#8, e := 0x34#8 }) = some (0x46#8, 0x00#8, 0x0101#16) := by decide

theorem test_addAH :
    summary (step { onBus 0x0100#16 [(0x0100, 0x84#8)] with a := 0xF0#8, h := 0x20#8 }) = some (0x10#8, 0x10#8, 0x0101#16) := by decide

theorem test_addAL :
    summary (step { onBus 0x0100#16 [(0x0100, 0x85#8)] with a := 0x08#8, l := 0x08#8 }) = some (0x10#8, 0x20#8, 0x0101#16) := by decide

theorem test_addAIndHL :
    summary (step { onBus 0x0100#16 [(0x0100, 0x86#8), (0x1234, 0xAA#8)] with a := 0x00#8, h := 0x12#8, l := 0x34#8 }) = some (0xAA#8, 0x00#8, 0x0101#16) := by decide

theorem test_addAA :
    summary (step { onBus 0x0100#16 [(0x0100, 0x87#8)] with a := 0x88#8 }) = some (0x10#8, 0x30#8, 0x0101#16) := by decide

theorem test_addAN8 :
    summary (step { onBus 0x0100#16 [(0x0100, 0xC6#8), (0x0101, 0x01#8)] with a := 0xFF#8 }) = some (0x00#8, 0xB0#8, 0x0102#16) := by decide

theorem test_adcAB :
    summary (step { onBus 0x0100#16 [(0x0100, 0x88#8)] with a := 0x01#8, b := 0xFF#8, flags := ⟨false, false, false, true⟩ }) = some (0x01#8, 0x10#8, 0x0101#16) := by decide

theorem test_adcAC :
    summary (step { onBus 0x0100#16 [(0x0100, 0x89#8)] with a := 0x0E#8, c := 0x01#8, flags := ⟨false, false, false, true⟩ }) = some (0x10#8, 0x20#8, 0x0101#16) := by decide

theorem test_adcAD :
    summary (step { onBus 0x0100#16 [(0x0100, 0x8A#8)] with a := 0x00#8, d := 0x0F#8, flags := ⟨false, false, false, true⟩ }) = some (0x10#8, 0x00#8, 0x0101#16) := by decide

theorem test_adcAE :
    summary (step { onBus 0x0100#16 [(0x0100, 0x8B#8)] with a := 0xFF#8, e := 0x00#8, flags := ⟨false, false, false, true⟩ }) = some (0x00#8, 0xB0#8, 0x0101#16) := by decide

theorem test_adcAH :
    summary (step { onBus 0x0100#16 [(0x0100, 0x8C#8)] with a := 0x12#8, h := 0x34#8 }) = some (0x46#8, 0x00#8, 0x0101#16) := by decide

theorem test_adcAL :
    summary (step { onBus 0x0100#16 [(0x0100, 0x8D#8)] with a := 0x80#8, l := 0x7F#8, flags := ⟨false, false, false, true⟩ }) = some (0x00#8, 0x90#8, 0x0101#16) := by decide

theorem test_adcAIndHL :
    summary (step { onBus 0x0100#16 [(0x0100, 0x8E#8), (0xC000, 0x20#8)] with a := 0x10#8, h := 0xC0#8, l := 0x00#8, flags := ⟨false, false, false, true⟩ }) = some (0x31#8, 0x00#8, 0x0101#16) := by decide

theorem test_adcAA :
    summary (step { onBus 0x0100#16 [(0x0100, 0x8F#8)] with a := 0x88#8, flags := ⟨false, false, false, true⟩ }) = some (0x11#8, 0x30#8, 0x0101#16) := by decide

theorem test_adcAN8 :
    summary (step { onBus 0xFFFF#16 [(0x0000, 0x0F#8), (0xFFFF, 0xCE#8)] with a := 0xF0#8, flags := ⟨false, false, false, true⟩ }) = some (0x00#8, 0x90#8, 0x0001#16) := by decide

theorem test_subAB :
    summary (step { symOnBus 0x0100#16 [(0x0100, 0x90#8)] with a := 0x3E#8, b := 0x3E#8 }) = some (0x00#8, 0xC0#8, 0x0101#16) := by decide

theorem test_subAC :
    summary (step { symOnBus 0x0100#16 [(0x0100, 0x91#8)] with a := 0x10#8, c := 0x01#8 }) = some (0x0F#8, 0x60#8, 0x0101#16) := by decide

theorem test_subAD :
    summary (step { symOnBus 0x0100#16 [(0x0100, 0x92#8)] with a := 0x00#8, d := 0x01#8 }) = some (0xFF#8, 0x70#8, 0x0101#16) := by decide

theorem test_subAE :
    summary (step { symOnBus 0x0100#16 [(0x0100, 0x93#8)] with a := 0x50#8, e := 0x20#8 }) = some (0x30#8, 0x40#8, 0x0101#16) := by decide

theorem test_subAH :
    summary (step { symOnBus 0x0100#16 [(0x0100, 0x94#8)] with a := 0x3E#8, h := 0x0F#8 }) = some (0x2F#8, 0x60#8, 0x0101#16) := by decide

theorem test_subAL :
    summary (step { symOnBus 0x0100#16 [(0x0100, 0x95#8)] with a := 0x0F#8, l := 0x10#8 }) = some (0xFF#8, 0x50#8, 0x0101#16) := by decide

theorem test_subAIndHL :
    summary (step { symOnBus 0x0100#16 [(0x0100, 0x96#8), (0x8000, 0x40#8)] with a := 0x3E#8, h := 0x80#8, l := 0x00#8 }) = some (0xFE#8, 0x50#8, 0x0101#16) := by decide

theorem test_subAA :
    summary (step { symOnBus 0x0100#16 [(0x0100, 0x97#8)] with a := 0x5A#8 }) = some (0x00#8, 0xC0#8, 0x0101#16) := by decide

theorem test_subAN8 :
    summary (step { symOnBus 0x0100#16 [(0x0100, 0xD6#8), (0x0101, 0x3F#8)] with a := 0x3E#8 }) = some (0xFF#8, 0x70#8, 0x0102#16) := by decide

theorem test_sbcAB :
    summary (step { symOnBus 0x0100#16 [(0x0100, 0x98#8)] with a := 0x3B#8, b := 0x2A#8, flags := ⟨false, false, false, true⟩ }) = some (0x10#8, 0x40#8, 0x0101#16) := by decide

theorem test_sbcAC :
    summary (step { symOnBus 0x0100#16 [(0x0100, 0x99#8)] with a := 0x10#8, c := 0x0F#8, flags := ⟨false, false, false, true⟩ }) = some (0x00#8, 0xC0#8, 0x0101#16) := by decide

theorem test_sbcAD :
    summary (step { symOnBus 0x0100#16 [(0x0100, 0x9A#8)] with a := 0x00#8, d := 0xFF#8, flags := ⟨false, false, false, true⟩ }) = some (0x00#8, 0xD0#8, 0x0101#16) := by decide

theorem test_sbcAE :
    summary (step { symOnBus 0x0100#16 [(0x0100, 0x9B#8)] with a := 0x00#8, e := 0x00#8, flags := ⟨false, false, false, true⟩ }) = some (0xFF#8, 0x70#8, 0x0101#16) := by decide

theorem test_sbcAH :
    summary (step { symOnBus 0x0100#16 [(0x0100, 0x9C#8)] with a := 0x20#8, h := 0x10#8 }) = some (0x10#8, 0x40#8, 0x0101#16) := by decide

theorem test_sbcAL :
    summary (step { symOnBus 0x0100#16 [(0x0100, 0x9D#8)] with a := 0x01#8, l := 0x00#8, flags := ⟨false, false, false, true⟩ }) = some (0x00#8, 0xC0#8, 0x0101#16) := by decide

theorem test_sbcAIndHL :
    summary (step { symOnBus 0x0100#16 [(0x0100, 0x9E#8), (0xFFFF, 0x4F#8)] with a := 0x3B#8, h := 0xFF#8, l := 0xFF#8, flags := ⟨false, false, false, true⟩ }) = some (0xEB#8, 0x50#8, 0x0101#16) := by decide

theorem test_sbcAA :
    summary (step { symOnBus 0x0100#16 [(0x0100, 0x9F#8)] with a := 0x42#8, flags := ⟨false, false, false, true⟩ }) = some (0xFF#8, 0x70#8, 0x0101#16) := by decide

theorem test_sbcAN8 :
    summary (step { symOnBus 0x0100#16 [(0x0100, 0xDE#8), (0x0101, 0x3A#8)] with a := 0x3B#8, flags := ⟨false, false, false, true⟩ }) = some (0x00#8, 0xC0#8, 0x0102#16) := by decide

/-! ## Operands, wraps and bus reads (spec/95_test_vectors.md 2.6) -/

theorem test_immediate_wraps_to_zero :
    accesses (step { onBus 0xFFFF#16 [(0x0000, 0x10#8), (0xFFFF, 0xC6#8)] with a := 0x01#8 }) =
      some [.read 0xFFFF#16, .read 0x0000#16] := by decide

theorem test_hl_at_own_opcode :
    summary (step { onBus 0x0300#16 [(0x0300, 0x86#8)] with a := 0x01#8, h := 0x03#8 }) =
      some (0x87#8, 0x00#8, 0x0301#16) := by decide

theorem test_adc_half_carry_class :
    adc8 0x0F#8 0x0F#8 true = ⟨0x1F#8, ⟨false, false, false, false⟩⟩ := by decide

theorem test_sbc_half_borrow_class :
    sbc8 0x10#8 0x0F#8 true = ⟨0x00#8, ⟨true, true, false, false⟩⟩ := by decide

/-! ## Fatal outcomes (spec/95_test_vectors.md 2.7) -/

theorem test_reset_on_zero_bus_halts :
    haltSummary (step (onBus 0x0000#16 [(0x0000, 0x00#8)])) = some (⟨1#8, 0x00#8, 0x0000#16, none⟩, 0x0000#16) := by decide

theorem test_prefix_halts_without_second_read :
    accesses (step { onBus 0x1234#16 [(0x1234, 0xCB#8), (0x1235, 0x87#8)] with a := 0x55#8 }) = some [.read 0x1234#16] := by decide

theorem test_sub_hl_unimplemented :
    haltSummary (step { onBus 0x0100#16 [(0x0100, 0x96#8), (0x2000, 0x01#8)] with a := 0x05#8, h := 0x20#8 }) =
      some (⟨2#8, 0x96#8, 0x0100#16, some .sub⟩, 0x0100#16) := by decide

theorem test_sub_hl_unimplemented_reads_no_operand :
    accesses (step { onBus 0x0100#16 [(0x0100, 0x96#8), (0x2000, 0x01#8)] with h := 0x20#8 }) = some [.read 0x0100#16] := by decide

theorem test_sub_immediate_placeholder :
    summary (step { placeholderOnBus 0x0100#16 [(0x0100, 0xD6#8), (0x0101, 0x01#8)] with a := 0x05#8 }) =
      some (0x05#8, 0x00#8, 0x0100#16) := by decide

/-! ## The host port (spec/95_test_vectors.md 2.1, 2.2) -/

theorem test_pair_af_masks : ((State.reset.setPair .af 0x12FF#16).getPair .af) = 0x12F0#16 := by decide

theorem test_pair_af_flags : (State.reset.setPair .af 0x00A5#16).flags = ⟨true, false, true, false⟩ := by decide

theorem test_pair_bc_high_first : (State.reset.setPair .bc 0xAABB#16).b = 0xAA#8 := by decide

/-! ## Memory -/

theorem test_memory_write_keeps_order :
    Memory.write [(1, 0x11#8), (3, 0x33#8)] 2 0x22#8 = [(1, 0x11#8), (2, 0x22#8), (3, 0x33#8)] := by decide

theorem test_placed_word_runs :
    summary (step (State.reset.withFetchWord 16 0x23C6)) = some (0x23#8, 0x00#8, 0x0002#16) := by decide

/-! ## Witnesses: a state and operands that meet all the hypotheses of a statement together -/

/-- ADD A,B at 0x0100 in the default build. -/
def addState : State := onBus 0x0100#16 [(0x0100, 0x80#8)]

/-- A Halted core. -/
def haltedState : State := { State.reset with run := .halted ⟨1#8, 0x00#8, 0x0000#16, none⟩ }

theorem witness_RegisterFileAccess : Reg8.b ≠ Reg8.a := by decide

theorem witness_HostWritesItsTargetOnly : FlagName.z ≠ FlagName.c ∧ Reg8.h ≠ Reg8.l := by decide

theorem witness_NextPcIsModular_one : (1 = 1 ∨ 1 = 2) ∧ nextPc 0xFFFF#16 1 = 0x0000#16 := by decide

theorem witness_NextPcIsModular_two : (2 = 1 ∨ 2 = 2) ∧ nextPc 0xFFFF#16 2 = 0x0001#16 := by decide

theorem witness_FirstFetchAfterReset : decode ((onBus 0x1234#16 [(0x0000, 0xD3#8)]).busAnswer 0x0000#16) = none := by decide

theorem witness_BusReadIsOneAccess : addState.peek 0x0100#16 = some 0x80#8 ∧ addState.peek 0x0101#16 = none := by decide

theorem witness_WriteByteThenReadByte : (0xFFFF#16 : Word) ≠ 0x0000#16 ∧ Memory.wf addState.mem := by decide

theorem witness_StepMakesTheseReads : ∃ t, step addState = .next t := ⟨_, rfl⟩

theorem witness_StepMakesTheseReads_none : decode ((onBus 0x0000#16 [(0x0000, 0x76#8)]).busAnswer 0x0000#16) = none := by decide

theorem witness_StepMakesTheseReads_register :
    decode (addState.busAnswer addState.pc) = some .addAB ∧ addState.params.implements .add = true ∧
      Instr.target .addAB = .reg .b := by decide

theorem witness_StepMakesTheseReads_hl :
    decode ((onBus 0xFFFF#16 [(0xFFFF, 0x8E#8)]).busAnswer 0xFFFF#16) = some .adcAIndHL ∧
      Params.default.implements .adc = true ∧ Instr.target .adcAIndHL = .hl := by decide

theorem witness_StepMakesTheseReads_d8 :
    decode ((onBus 0xFFFF#16 [(0xFFFF, 0xC6#8)]).busAnswer 0xFFFF#16) = some .addAN8 ∧
      Params.default.implements .add = true ∧ Instr.target .addAN8 = .d8 := by decide

theorem witness_StepMakesTheseReads_unimplemented :
    decode ((onBus 0x0000#16 [(0x0000, 0x9E#8)]).busAnswer 0x0000#16) = some .sbcAIndHL ∧
      Params.default.implements .sbc = false := by decide

theorem witness_CoreNeverWritesTheBus : ∃ t, step (symOnBus 0x0000#16 [(0x0000, 0x96#8)]) = .next t := ⟨_, rfl⟩

theorem witness_DecodeFollowsTheTable : (0xCB#8 : Byte) ∉ specRows.map (·.1) := by decide

theorem witness_DecodeReadsTheFields_first : (0x9F#8 : Byte).extractLsb' 5 3 = 0b100#3 := by decide

theorem witness_DecodeReadsTheFields_second :
    (0xDE#8 : Byte).extractLsb' 5 3 = 0b110#3 ∧ (0xDE#8 : Byte).extractLsb' 0 3 = 0b110#3 := by decide

theorem witness_DecodeReadsTheFields_third :
    (0xA0#8 : Byte).extractLsb' 5 3 ≠ 0b100#3 ∧
      ¬((0xA0#8 : Byte).extractLsb' 5 3 = 0b110#3 ∧ (0xA0#8 : Byte).extractLsb' 0 3 = 0b110#3) := by decide

theorem witness_DecodeOfEncode : AsmInstr.WellFormed ⟨.sbcAN8, some 0xFF#8⟩ ∧ AsmInstr.WellFormed ⟨.sbcAA, none⟩ := by decide

theorem witness_EncodeOfDecode : decodeStream [0xCE#8, 0x0F#8] = .ok (⟨.adcAN8, some 0x0F#8⟩, []) := rfl

theorem witness_OpcodeDeterminesLength :
    AsmInstr.WellFormed ⟨.addAIndHL, none⟩ ∧ Instr.target .addAIndHL = .hl ∧
      AsmInstr.WellFormed ⟨.addAN8, some 0x00#8⟩ ∧ Instr.target .addAN8 = .d8 ∧
      AsmInstr.WellFormed ⟨.addAL, none⟩ ∧ Instr.target .addAL = .reg .l := by decide

theorem witness_OpcodeDeterminesLength_same_opcode :
    AsmInstr.WellFormed ⟨.addAN8, some 0x01#8⟩ ∧ AsmInstr.WellFormed ⟨.addAN8, some 0x02#8⟩ ∧
      Instr.opcode .addAN8 = Instr.opcode .addAN8 := by decide

theorem witness_DecoderRejectsByName : decode 0xD3#8 = none ∧ decode 0xDE#8 = some .sbcAN8 ∧ Instr.target .sbcAN8 = .d8 := by decide

theorem witness_AddWithCarryHalfCarryClass : true = true ∧ lowHalf 0x0F#8 = 0xF#4 ∧ lowHalf 0xFF#8 = 0xF#4 := by decide

theorem witness_SubtractWithCarryComputes :
    (true = true ∧ lowHalf 0x0F#8 = 0xF#4) ∧ ¬(true = true ∧ lowHalf 0x0E#8 = 0xF#4) ∧ ¬(false = true ∧ lowHalf 0x0F#8 = 0xF#4) := by
  decide

theorem witness_AddRegisterResult : (0x87#8, Instr.addAA, Reg8.a) ∈ addRegisterRows := by decide

theorem witness_AdcRegisterResult : (0x8F#8, Instr.adcAA, Reg8.a) ∈ adcRegisterRows := by decide

theorem witness_SubRegisterResult :
    (0x97#8, Instr.subAA, Reg8.a) ∈ subRegisterRows ∧ (symOnBus 0x0000#16 []).params.subtractMode = .symmetric := by decide

theorem witness_SubIndirectResult : (symOnBus 0x0000#16 [(0x0000, 0x96#8)]).params.subtractMode = .symmetric := by decide

theorem witness_SubImmediateResult : (symOnBus 0xFFFF#16 [(0xFFFF, 0xD6#8)]).params.subtractMode = .symmetric := by decide

theorem witness_SbcRegisterResult :
    (0x9F#8, Instr.sbcAA, Reg8.a) ∈ sbcRegisterRows ∧ (symOnBus 0x0000#16 []).params.subtractMode = .symmetric := by decide

theorem witness_SbcIndirectResult : (symOnBus 0x0000#16 [(0x0000, 0x9E#8)]).params.subtractMode = .symmetric := by decide

theorem witness_SbcImmediateResult : (symOnBus 0xFFFF#16 [(0xFFFF, 0xDE#8)]).params.subtractMode = .symmetric := by decide

theorem witness_UnimplementedSubtract_fault :
    (0xDE#8, Instr.sbcAN8, SubOp.sbc) ∈ gatedSubRows ++ gatedSbcRows ∧ State.reset.params.subtractMode = .unimplemented ∧
      State.reset.params.unimplementedPolicy = .fault := by decide

theorem witness_UnimplementedSubtract_placeholder :
    (0x90#8, Instr.subAB, SubOp.sub) ∈ gatedSubRows ++ gatedSbcRows ∧
      (placeholderOnBus 0x0000#16 []).params.subtractMode = .unimplemented ∧
      (placeholderOnBus 0x0000#16 []).params.unimplementedPolicy = .placeholder := by decide

theorem witness_AccumulatorAsItsOwnOperand :
    (symOnBus 0x0000#16 []).params.subtractMode = .symmetric ∧ (symOnBus 0x0000#16 []).flags.c = false := by decide

theorem witness_AccumulatorAsItsOwnOperand_carry :
    ({ symOnBus 0x0000#16 [] with flags := ⟨false, false, false, true⟩ } : State).params.subtractMode = .symmetric ∧
      ({ symOnBus 0x0000#16 [] with flags := ⟨false, false, false, true⟩ } : State).flags.c = true := by decide

theorem witness_InstructionFrame_executes :
    (∃ t, exec .addAB addState = .next t) ∧ addState.params.implements .add = true := ⟨⟨_, rfl⟩, rfl⟩

theorem witness_InstructionFrame_gated :
    (∃ t, exec .subAB addState = .next t) ∧ addState.params.implements .sub = false := ⟨⟨_, rfl⟩, rfl⟩

theorem witness_UnreadStateMakesNoDifference :
    State.reset.params.implements (Instr.op .addAB) = true ∧
      (true = State.reset.flags.c ∨ Instr.op .addAB = .add ∨ Instr.op .addAB = .sub) := by decide

theorem witness_UnreadStateMakesNoDifference_same_carry :
    State.reset.params.implements (Instr.op .adcAB) = true ∧
      (false = State.reset.flags.c ∨ Instr.op .adcAB = .add ∨ Instr.op .adcAB = .sub) := by decide

theorem witness_StepRunsTheDecodedInstruction :
    addState.run = .running ∧ decode (addState.busAnswer addState.pc) = some .addAB := by decide

theorem witness_ExecutedStepWrites :
    addState.run = .running ∧ decode (addState.busAnswer addState.pc) = some .addAB ∧
      addState.params.implements (Instr.op .addAB) = true := by decide

theorem witness_FatalOutcomeEntry_decode :
    (onBus 0xFFFF#16 [(0xFFFF, 0x00#8)]).run = .running ∧
      decode ((onBus 0xFFFF#16 [(0xFFFF, 0x00#8)]).busAnswer 0xFFFF#16) = none := by decide

theorem witness_FatalOutcomeEntry_unimplemented :
    (onBus 0x0100#16 [(0x0100, 0xDE#8)]).run = .running ∧
      decode ((onBus 0x0100#16 [(0x0100, 0xDE#8)]).busAnswer 0x0100#16) = some .sbcAN8 ∧
      Instr.op .sbcAN8 = SubOp.toOp .sbc ∧ Params.default.subtractMode = .unimplemented ∧
      Params.default.unimplementedPolicy = .fault := by decide

theorem witness_PlaceholderStepRepeats :
    (placeholderOnBus 0x0000#16 [(0x0000, 0x90#8)]).run = .running ∧
      (placeholderOnBus 0x0000#16 [(0x0000, 0x90#8)]).params.unimplementedPolicy = .placeholder ∧
      (placeholderOnBus 0x0000#16 [(0x0000, 0x90#8)]).params.implements (Instr.op .subAB) = false ∧
      (placeholderOnBus 0x0000#16 [(0x0000, 0x90#8)]).peek 0x0000#16 = some 0x90#8 ∧ decode 0x90#8 = some .subAB := by decide

theorem witness_HaltedUntilReset :
    haltedState.run = .halted ⟨1#8, 0x00#8, 0x0000#16, none⟩ ∧ HostAction.writePc 0x0100#16 ≠ HostAction.reset := by decide

theorem witness_RunningCoreAlwaysSteps : addState.run = .running := by decide

theorem witness_FaultIsPrecise :
    ∃ t r, step (onBus 0x0003#16 [(0x0003, 0xFD#8)]) = .next t ∧ t.run = .halted r := ⟨_, _, rfl, rfl⟩

theorem witness_StepRefinesTheDatapath :
    addState.run = .running ∧ addState.datapathStep = some ((addState.note (.read 0x0100#16)).executeArith .add (.reg .b)) := by
  decide

theorem witness_StepDependsOnTheBytesItReads :
    addState.run = .running ∧ ∀ address, .read address ∈ addState.stepAccesses →
      Memory.lookup [(0x0100, 0x80#8), (0x0101, 0xFF#8)] address.toNat = addState.peek address := by
  refine ⟨rfl, fun address h => ?_⟩
  have h' : address = 0x0100#16 := by simpa [show addState.stepAccesses = [.read 0x0100#16] from rfl] using h
  subst h'
  decide

theorem witness_PlacedWordIsRun : decodeTableWord 16 0x10DE = some .sbcAN8 ∧ decodeTableWord 8 0x9F = some .sbcAA := by decide

theorem witness_StepKeepsInv : State.Inv addState ∧ ∃ t, step addState = .next t := by
  refine ⟨⟨by decide, fun r h => ?_, fun x h => ?_⟩, _, rfl⟩
  · exact absurd h (by simp [addState, onBus, State.reset])
  · exact absurd h (by simp [addState, onBus, State.reset])

theorem witness_HostActionKeepsInv : State.Inv haltedState := by
  refine ⟨by decide, fun r h => ?_, fun x h => ?_⟩
  · injection h with h
    subst h
    exact .inl ⟨rfl, rfl, by decide⟩
  · exact absurd h (by simp [haltedState, State.reset])

theorem witness_InvHoldsAlongRuns : State.Inv addState ∧ ∃ t, addState.Reaches t ∧ t ≠ addState :=
  ⟨witness_StepKeepsInv.1, addState.hostAct (.writeSp 0xFFFE#16), .tail _ _ .refl (.host _ _), by decide⟩

theorem witness_RunsOnlyAddReads : ∃ t, addState.Reaches t ∧ t.busLog ≠ addState.busLog :=
  ⟨_, .tail _ _ .refl (.step _ _ (rfl : step addState = .next _)), by decide⟩

end Sys2Proof.Tests
end

namespace Sys2Proof.Proofs

open Sys2Proof.Machine Sys2Proof.Laws

/-! ## The register file: what its views read, and what its writes leave -/

/-- The four flags as the number that the packed view spells (spec/10_state.md R22). -/
theorem pack_toNat (x : Flags) :
    x.pack.toNat = 128 * x.z.toNat + 64 * x.n.toNat + 32 * x.h.toNat + 16 * x.c.toNat := by
  obtain ⟨z, n, h, c⟩ := x
  cases z <;> cases n <;> cases h <;> cases c <;> rfl

/-- The packed view has no bit below bit 4 (spec/10_state.md R24). -/
theorem pack_and_lowNibble (x : Flags) : x.pack &&& 0x0F#8 = 0#8 := by
  rw [← unpack_pack x, pack_unpack, BitVec.and_assoc]
  exact BitVec.and_zero

theorem getF_toNat (s : State) :
    s.getF.toNat =
      128 * s.flags.z.toNat + 64 * s.flags.n.toNat + 32 * s.flags.h.toNat + 16 * s.flags.c.toNat :=
  pack_toNat s.flags

theorem setF_eq (s : State) (v : Byte) :
    s.setF v = { s with flags := ⟨v.getLsbD 7, v.getLsbD 6, v.getLsbD 5, v.getLsbD 4⟩ } := rfl

theorem getF_setF (s : State) (v : Byte) : (s.setF v).getF = v &&& 0xF0#8 :=
  pack_unpack v

theorem setF_getF (s : State) : s.setF s.getF = s := by
  simp only [State.setF, State.getF, unpack_pack, State.setFlags]

/-! ## A word and its two halves -/

theorem highByte_toNat (v : Word) : (highByte v).toNat = v.toNat / 256 := by
  have := v.isLt
  simp only [highByte, BitVec.extractLsb'_toNat, Nat.shiftRight_eq_div_pow]
  omega

theorem lowByte_toNat (v : Word) : (lowByte v).toNat = v.toNat % 256 := by
  simp [lowByte]

theorem highByte_append_lowByte (v : Word) : highByte v ++ lowByte v = v := by
  apply BitVec.eq_of_toNat_eq
  rw [append_toNat, highByte_toNat, lowByte_toNat]
  omega

/-- The low half holds the bits that a write of the packed view unpacks. -/
theorem unpack_lowByte (v : Word) :
    Flags.unpack (lowByte v) = ⟨v.getLsbD 7, v.getLsbD 6, v.getLsbD 5, v.getLsbD 4⟩ := by
  simp [Flags.unpack, lowByte]

/-- A mask that keeps the high half and cuts the low nibble acts on the low half alone. -/
theorem highByte_append_maskedLowByte (v : Word) :
    highByte v ++ (lowByte v &&& 0xF0#8) = v &&& 0xFFF0#16 := by
  have hmask : (0xFFF0#16 : Word) = BitVec.allOnes 8 ++ 0xF0#8 := by decide
  calc highByte v ++ (lowByte v &&& 0xF0#8)
      = (highByte v ++ lowByte v) &&& (BitVec.allOnes 8 ++ 0xF0#8) := by
        rw [BitVec.and_append, BitVec.and_allOnes]
    _ = v &&& 0xFFF0#16 := by rw [highByte_append_lowByte, hmask]

/-! ## The register pairs -/

/-- A pair read finds the two halves of what was written (spec/10_state.md R28). -/
theorem getPair_setPair_of_ne_af (s : State) (p : Pair) (v : Word) (h : p ≠ .af) :
    (s.setPair p v).getPair p = v := by
  cases p with
  | af => exact absurd rfl h
  | bc | de | hl => exact highByte_append_lowByte v

/-- AF loses the low nibble, which the packed view does not hold (spec/10_state.md R24, R28). -/
theorem getPair_setPair_af (s : State) (v : Word) :
    (s.setPair .af v).getPair .af = v &&& 0xFFF0#16 := by
  calc (s.setPair .af v).getPair .af
      = highByte v ++ (Flags.unpack (lowByte v)).pack := rfl
    _ = v &&& 0xFFF0#16 := by rw [pack_unpack, highByte_append_maskedLowByte]

theorem setPair_af_eq (s : State) (v : Word) :
    s.setPair .af v =
      { s with a := highByte v, flags := ⟨v.getLsbD 7, v.getLsbD 6, v.getLsbD 5, v.getLsbD 4⟩ } := by
  rw [← unpack_lowByte v]
  rfl

/-! ## The obligations on the register file, the program counter and reset -/

/-- Settles O5: the bytes written are the high and the low half of the value. -/
theorem pairWriteThenRead : Obligations.PairWriteThenRead := by
  intro s v
  refine ⟨⟨highByte v, lowByte v, highByte_toNat v, lowByte_toNat v, setPair_af_eq s v, rfl, rfl, rfl⟩,
    ?_, ?_, ?_, getPair_setPair_af s v⟩
  · exact getPair_setPair_of_ne_af s .bc v (by decide)
  · exact getPair_setPair_of_ne_af s .de v (by decide)
  · exact getPair_setPair_of_ne_af s .hl v (by decide)

/-- Settles O1. -/
theorem flagViewPacksBits : Obligations.FlagViewPacksBits :=
  getF_toNat

/-- Settles O2. -/
theorem flagViewWriteUnpacks : Obligations.FlagViewWriteUnpacks :=
  ⟨fun s v => ⟨setF_eq s v, getF_setF s v⟩, fun s => ⟨pack_and_lowNibble s.flags, setF_getF s⟩⟩

/-- Settles O3: the frame is that of `setReg`, and the host's `F` is the packed view. -/
theorem registerFileAccess : Obligations.RegisterFileAccess := by
  refine ⟨fun s r v => ⟨State.getReg_setReg_same s r v, fun q => State.getReg_setReg_ne s r q v, ?_⟩,
    fun s v => ⟨getF_toNat s, setF_eq s v⟩⟩
  simp

/-- Settles O4: each pair is the concatenation of its two registers. -/
theorem pairReadsHighByteFirst : Obligations.PairReadsHighByteFirst := by
  intro s
  refine ⟨?_, append_toNat s.b s.c, append_toNat s.d s.e, append_toNat s.h s.l⟩
  rw [State.getPair, append_toNat, getF_toNat]

/-- Settles O7: the sum wraps whatever the length is. -/
theorem nextPcIsModular : Obligations.NextPcIsModular :=
  fun pc len _ => nextPc_toNat pc len

/-- Settles O8. -/
theorem resetClearsPcAndSp : Obligations.ResetClearsPcAndSp :=
  ⟨rfl, rfl⟩

end Sys2Proof.Proofs

namespace Sys2Proof.Proofs

open Sys2Proof.Machine Sys2Proof.Statements Sys2Proof.Laws

/-! ## The bus accesses of a step (spec/20_memory.md R57 to R59) -/

/-- The (HL) address of the statements, spelled as a number, is pair hl (R94). -/
theorem hlAddress_eq (s : State) : hlAddress s = s.getPair .hl := by
  have hh := s.h.isLt
  have hl := s.l.isLt
  apply BitVec.eq_of_toNat_eq
  rw [State.getPair, append_toNat, hlAddress, BitVec.toNat_ofNat]
  omega

/-- The immediate's address of the statements, spelled as a number, is the one an operand fetch reads (R95). -/
theorem immAddress_eq (s : State) : immAddress s = nextPc s.pc 1 := by
  apply BitVec.eq_of_toNat_eq
  rw [nextPc_toNat, immAddress, BitVec.toNat_ofNat, Nat.mod_mod]

/-- The accesses that an instruction makes after its opcode read: those of its operand fetch, and none where the build does not
implement it (R92). -/
def execAccesses (i : Instr) (s : State) : List BusAccess :=
  if s.params.implements i.op then operandAccesses s i.target else []

theorem execAccesses_of_implements {i : Instr} {s : State} (h : s.params.implements i.op = true) :
    execAccesses i s = operandAccesses s i.target :=
  if_pos h

theorem execAccesses_of_not_implements {i : Instr} {s : State} (h : s.params.implements i.op = false) :
    execAccesses i s = [] := by
  simp [execAccesses, h]

/-- The opcode read changes neither pc, nor pair hl, nor the build, so the operand addresses stay. -/
theorem execAccesses_fetchOpcode (i : Instr) (s : State) : execAccesses i s.fetchOpcode.2 = execAccesses i s := by
  cases ht : i.target <;> simp only [execAccesses, ht] <;> rfl

/-- What `exec` adds to the log, on each of its three outcomes. -/
theorem exec_busLog {i : Instr} {s t : State} (h : exec i s = .next t) : t.busLog = s.busLog ++ execAccesses i s := by
  rcases exec_cases i s with ⟨himp, he⟩ | ⟨op, hop, hmode, _, he⟩ | ⟨himp, _, he⟩ <;>
    (rw [he] at h; injection h with h; subst h)
  · rw [executeArith_eq, execAccesses_of_implements himp]
  · have himp : s.params.implements i.op = false := (implements_eq_false s.params i.op).mpr ⟨hmode, op, hop⟩
    rw [execAccesses_of_not_implements himp, List.append_nil]
    rfl
  · rw [execAccesses_of_not_implements himp, List.append_nil]

theorem stepAccesses_of_decode_none {s : State} (h : decode (s.busAnswer s.pc) = none) :
    s.stepAccesses = [.read s.pc] := by
  simp only [State.stepAccesses, h]

/-- A step that decodes reads pc, and then makes the accesses of its instruction. -/
theorem stepAccesses_of_decode_some {s : State} {i : Instr} (h : decode (s.busAnswer s.pc) = some i) :
    s.stepAccesses = .read s.pc :: execAccesses i s := by
  cases himp : s.params.implements i.op with
  | false => simp [State.stepAccesses, h, himp, execAccesses_of_not_implements himp]
  | true =>
    rw [execAccesses_of_implements himp]
    cases ht : i.target <;> simp [State.stepAccesses, h, himp, ht, operandAccesses, nextPc_one]

/-- The log after a step: the opcode read, and what its instruction adds to that. -/
theorem step_busLog {s t : State} (h : step s = .next t) : t.busLog = s.busLog ++ s.stepAccesses := by
  obtain ⟨_, ⟨hd, rfl⟩ | ⟨i, hd, he⟩⟩ := step_cases s t h
  · rw [stepAccesses_of_decode_none hd]
    rfl
  · calc t.busLog
        = s.fetchOpcode.2.busLog ++ execAccesses i s.fetchOpcode.2 := exec_busLog he
      _ = (s.busLog ++ [.read s.pc]) ++ execAccesses i s := by rw [execAccesses_fetchOpcode]; rfl
      _ = s.busLog ++ s.stepAccesses := by
          rw [stepAccesses_of_decode_some hd, List.append_assoc, List.singleton_append]

/-- Settles O14: the log grows by the opcode read and the operand's accesses, which the three targets tell apart. -/
theorem stepMakesTheseReads : Obligations.StepMakesTheseReads := by
  refine ⟨fun s t => step_busLog, fun s => ⟨stepAccesses_of_decode_none, fun i hd => ?_⟩⟩
  rw [stepAccesses_of_decode_some hd]
  refine ⟨fun himp => ?_, fun himp => ?_⟩
  · rw [execAccesses_of_not_implements himp]
  · rw [execAccesses_of_implements himp]
    refine ⟨fun r ht => ?_, fun ht => ?_, fun ht => ?_⟩
    · rw [ht, operandAccesses]
    · rw [ht, operandAccesses, hlAddress_eq]
    · rw [ht, operandAccesses, immAddress_eq]

end Sys2Proof.Proofs

namespace Sys2Proof.Proofs

open Sys2Proof.Statements Sys2Proof.Laws

/-! ## The opcode table and its lengths (spec/30_encoding.md R70, R74, R76) -/

/-- The row that the spec's table of R74 gives an instruction. -/
def specRow (i : Instr) : Byte × Op × Target × Nat :=
  (i.opcode, i.op, i.target, i.target.length)

/-- The spec's table lists the rows of the decoder's instructions. -/
theorem specRows_eq_map_specRow : specRows = (opcodeTable.map (·.2)).map specRow := by
  decide

/-- The spec's table and the decoder's have the same opcode bytes. -/
theorem specRows_map_fst : specRows.map (·.1) = opcodeTable.map (·.1) := rfl

/-- No two rows of the decoder's table share a byte. -/
theorem opcodeTable_nodup : (opcodeTable.map (·.1)).Nodup := by
  decide

theorem decode_eq_none_of_notMem {opcode : Byte} (h : opcode ∉ opcodeTable.map (·.1)) : decode opcode = none := by
  refine List.lookup_eq_none_iff.mpr fun row hrow => ?_
  have hne : opcode ≠ row.1 := fun heq => h (heq ▸ List.mem_map_of_mem hrow)
  simpa using hne

/-- Settles O16: each row is that of an instruction, which its opcode byte decodes to, and a lookup finds no byte outside the table. -/
theorem decodeFollowsTheTable : Obligations.DecodeFollowsTheTable := by
  refine ⟨fun row hrow => ?_, ?_, rfl, fun opcode h => ?_⟩
  · rw [specRows_eq_map_specRow] at hrow
    obtain ⟨i, _, rfl⟩ := List.mem_map.mp hrow
    exact ⟨i, decode_opcode i, rfl, rfl, rfl⟩
  · rw [specRows_map_fst]
    exact opcodeTable_nodup
  · rw [specRows_map_fst] at h
    exact decode_eq_none_of_notMem h

/-- Two instructions with one opcode byte are the same, since the byte decodes to both. -/
theorem opcode_injective : Function.Injective Instr.opcode := by
  intro i j h
  have hdecode : some i = some j := by rw [← decode_opcode i, ← decode_opcode j, h]
  exact Option.some.inj hdecode

theorem takesImmediate_iff (i : Instr) : i.takesImmediate = true ↔ i.target = .d8 := by
  obtain ⟨_, htarget, _⟩ := Encoding.all i
  exact htarget

/-- A spelled instruction is well formed when it has an immediate byte exactly for the target D8. -/
theorem wellFormed_iff (x : AsmInstr) : x.WellFormed ↔ (x.imm.isSome = true ↔ x.instr.target = .d8) := by
  rw [← takesImmediate_iff, ← Bool.eq_iff_iff]
  exact beq_iff_eq

theorem target_length_of_ne_d8 {t : Target} (h : t ≠ .d8) : t.length = 1 := by
  cases t with
  | reg _ => rfl
  | hl => rfl
  | d8 => exact absurd rfl h

/-- The byte after the opcode is the immediate, present or not. -/
theorem encode_getElem?_one (x : AsmInstr) : (encode x)[1]? = x.imm := by
  cases himm : x.imm <;> simp [encode, himm]

/-- A well-formed instruction has the length of its target. -/
theorem encode_length {x : AsmInstr} (h : x.WellFormed) : (encode x).length = x.instr.target.length := by
  rw [wellFormed_iff] at h
  cases himm : x.imm with
  | none =>
    have htarget : x.instr.target ≠ .d8 := by simpa [himm] using h
    simp [encode, himm, target_length_of_ne_d8 htarget]
  | some imm =>
    have htarget : x.instr.target = .d8 := by simpa [himm] using h
    simp [encode, himm, htarget, Target.length]

/-- Settles O20: the length is that of the target, and the opcode determines the instruction. -/
theorem opcodeDeterminesLength : Obligations.OpcodeDeterminesLength := by
  intro x hx
  refine ⟨rfl, ?_, fun ht => ?_, fun ht => ⟨?_, encode_getElem?_one x⟩, fun y hy hopcode => ?_⟩
  · rintro ⟨r, ht⟩
    rw [encode_length hx, ht, Target.length]
  · rw [encode_length hx, ht, Target.length]
  · rw [encode_length hx, ht, Target.length]
  · rw [encode_length hx, encode_length hy, opcode_injective hopcode]

end Sys2Proof.Proofs

namespace Sys2Proof.Proofs

open Sys2Proof.Machine Sys2Proof.Statements Sys2Proof.Laws

/-! ## The course of a step (spec/40_execution_cycle.md R91 to R100) -/

/-- A Running core runs the instruction that the byte at pc decodes to, after the one read of that byte (R91). -/
theorem step_of_decode_some {s : State} {i : Instr} (hrun : s.run = .running)
    (hdecode : decode (s.busAnswer s.pc) = some i) : step s = exec i (afterRead s s.pc) := by
  have hfetch : decode s.fetchOpcode.1 = some i := hdecode
  rw [step_of_running s hrun, hfetch]
  rfl

/-- The number that the statements give the next pc is the one that an instruction commits (R97). -/
theorem nextPc_eq_ofNat (pc : Word) (len : Nat) : nextPc pc len = BitVec.ofNat 16 ((pc.toNat + len) % 65536) := by
  apply BitVec.eq_of_toNat_eq
  rw [nextPc_toNat, BitVec.toNat_ofNat, Nat.mod_mod]

/-- The whole next state of an executed instruction, with the operand as the bus answers it after the opcode read (R98, R99). -/
theorem step_of_implements {s : State} {i : Instr} (hrun : s.run = .running)
    (hdecode : decode (s.busAnswer s.pc) = some i) (himp : s.params.implements i.op = true) :
    step s = .next
      { s with
        a := (alu i.op s.a ((afterRead s s.pc).fetchOperand i.target).1 s.flags.c).res
        flags := (alu i.op s.a ((afterRead s s.pc).fetchOperand i.target).1 s.flags.c).flags
        pc := nextPc s.pc i.target.length
        busLog := s.busLog ++ s.stepAccesses } := by
  have hstep : step s = .next ((afterRead s s.pc).executeArith i.op i.target) := by
    rw [step_of_decode_some hrun hdecode]
    exact exec_of_implements i (afterRead s s.pc) himp
  have hlog := step_busLog hstep
  rw [executeArith_eq] at hstep hlog
  rw [hstep, ← hlog]
  rfl

/-- Settles O47: the operand and the length are those of the instruction's target. -/
theorem executedStepWrites : Obligations.ExecutedStepWrites := by
  intro s i hrun hdecode himp
  refine ⟨((afterRead s s.pc).fetchOperand i.target).1, i.target.length, fun r ht => ?_, fun ht => ?_, fun ht => ?_, ?_⟩
  · rw [ht]
    exact ⟨State.getReg_note s _ r, rfl⟩
  · rw [ht, hlAddress_eq]
    exact ⟨rfl, rfl⟩
  · rw [ht, immAddress_eq]
    exact ⟨rfl, rfl⟩
  · rw [← nextPc_eq_ofNat]
    exact step_of_implements hrun hdecode himp

/-- Under the policy `placeholder`, an operation that the build does not implement changes nothing (R100). -/
theorem exec_of_placeholder {i : Instr} {s : State} (hpolicy : s.params.unimplementedPolicy = .placeholder)
    (himp : s.params.implements i.op = false) : exec i s = .next s := by
  obtain ⟨hmode, op, hop⟩ := (implements_eq_false s.params i.op).mp himp
  rw [exec_sub_sbc i s op hop, executeSubtract_placeholder s _ op _ hmode hpolicy]

/-- A placeholder step makes the opcode read and nothing else. -/
theorem step_of_placeholder {s : State} {i : Instr} (hrun : s.run = .running)
    (hpolicy : s.params.unimplementedPolicy = .placeholder) (himp : s.params.implements i.op = false)
    (hdecode : decode (s.busAnswer s.pc) = some i) : step s = .next (afterRead s s.pc) := by
  rw [step_of_decode_some hrun hdecode]
  exact exec_of_placeholder hpolicy himp

/-- Plain memory answers with the byte that stands there, however many accesses came before. -/
theorem busAnswer_of_peek {s : State} {address : Word} {v : Byte} (h : s.peek address = some v) :
    s.busAnswer address = v := by
  rw [State.busAnswer, h, Option.getD_some]

/-- A run begins with its first step. -/
theorem run_succ_of_step {s t : State} (k : Nat) (h : step s = .next t) :
    Sys2Proof.core.run (k + 1) s = Sys2Proof.core.run k t := by
  have hstep : Sys2Proof.core.step s = .next t := h
  simp only [Host.Core.run, hstep]

/-- A run of placeholder steps from plain memory: each step leaves a state that meets the same hypotheses again, one read later. -/
theorem run_of_placeholder {i : Instr} {opcode : Byte} (hdecode : decode opcode = some i) (k : Nat) {s : State}
    (hrun : s.run = .running) (hpolicy : s.params.unimplementedPolicy = .placeholder)
    (himp : s.params.implements i.op = false) (hpeek : s.peek s.pc = some opcode) :
    Sys2Proof.core.run k s = .next { s with busLog := s.busLog ++ List.replicate k (.read s.pc) } := by
  induction k generalizing s with
  | zero => simp [Host.Core.run]
  | succ k ih =>
    have hstep : step s = .next (afterRead s s.pc) :=
      step_of_placeholder hrun hpolicy himp (by rw [busAnswer_of_peek hpeek, hdecode])
    have hrest := ih (s := afterRead s s.pc) hrun hpolicy himp hpeek
    rw [run_succ_of_step k hstep, hrest]
    simp [afterRead, List.replicate_succ]

/-- Settles O49: the single step, and the induction over its repetition. -/
theorem placeholderStepRepeats : Obligations.PlaceholderStepRepeats :=
  fun _ _ hrun hpolicy himp => ⟨step_of_placeholder hrun hpolicy himp,
    fun _ hpeek hdecode k => run_of_placeholder hdecode k hrun hpolicy himp hpeek⟩

end Sys2Proof.Proofs

namespace Sys2Proof.Proofs

open Sys2Proof.Machine Sys2Proof.Statements Sys2Proof.Laws

/-! ## The arithmetic unit on additions (spec/41_add_adc.md R110, R111) -/

/-- Settles O23: the flags are those of the exact sum, and H that of the low nibbles. -/
theorem addComputes : Obligations.AddComputes := by
  intro acc operand cin
  refine ⟨BitVec.toNat_ofNat _ _, beq_iff_eq, rfl, ?_, decide_eq_true_iff⟩
  rw [← lowNibble_eq_mod acc, ← lowNibble_eq_mod operand]
  exact decide_eq_true_iff

/-- Settles O24: the folded operand is the model's `intermediate`. -/
theorem addWithCarryComputes : Obligations.AddWithCarryComputes := by
  intro acc operand cin
  refine ⟨intermediate operand cin, intermediate_toNat operand cin, BitVec.toNat_ofNat _ _, beq_iff_eq, rfl, ?_, ?_⟩
  · rw [← lowNibble_eq_mod acc, ← lowNibble_eq_mod (intermediate operand cin)]
    exact decide_eq_true_iff
  · exact Bool.or_eq_true_iff.trans (or_congr decide_eq_true_iff decide_eq_true_iff)

/-- The bits of a byte are those of any number with its residue. -/
theorem ofNat_mod_256 (n : Nat) : BitVec.ofNat 8 (n % 256) = BitVec.ofNat 8 n := by
  apply BitVec.eq_of_toNat_eq
  rw [BitVec.toNat_ofNat, BitVec.toNat_ofNat, Nat.mod_mod]

/-- The zero test of the arithmetic unit, on the exact result. -/
theorem ofNat_beq_zero (n : Nat) : (BitVec.ofNat 8 n == 0#8) = decide (n % 256 = 0) := by
  rw [Bool.eq_iff_iff, beq_iff_eq, decide_eq_true_iff, ← BitVec.toNat_inj, BitVec.toNat_ofNat]
  rfl

/-- What `add8` answers, in exact arithmetic on the numbers (R110). -/
theorem add8_eq (acc operand : Byte) (cin : Bool) :
    add8 acc operand cin =
      ⟨BitVec.ofNat 8 ((acc.toNat + operand.toNat) % 256),
        ⟨decide ((acc.toNat + operand.toNat) % 256 = 0), false,
          decide (acc.toNat % 16 + operand.toNat % 16 > 15), decide (acc.toNat + operand.toNat > 255)⟩⟩ := by
  simp only [add8, ofNat_mod_256, ofNat_beq_zero, lowNibble_eq_mod]

theorem firstOverflow_eq (operand : Byte) (cin : Bool) :
    firstOverflow operand cin = decide (operand.toNat + cin.toNat > 255) := rfl

/-- What `adc8` answers, in exact arithmetic on the numbers (R111). -/
theorem adc8_eq (acc operand : Byte) (cin : Bool) :
    adc8 acc operand cin =
      ⟨BitVec.ofNat 8 ((acc.toNat + (operand.toNat + cin.toNat) % 256) % 256),
        ⟨decide ((acc.toNat + (operand.toNat + cin.toNat) % 256) % 256 = 0), false,
          decide (acc.toNat % 16 + (operand.toNat + cin.toNat) % 256 % 16 > 15),
          decide (operand.toNat + cin.toNat > 255 ∨ acc.toNat + (operand.toNat + cin.toNat) % 256 > 255)⟩⟩ := by
  simp only [adc8, ofNat_mod_256, ofNat_beq_zero, lowNibble_eq_mod, intermediate_toNat, firstOverflow_eq, Bool.decide_or]

/-! ## The instruction of an operation and a target (spec/30_encoding.md R76) -/

theorem ofForm_op (op : Op) (t : Target) : (Instr.ofForm op t).op = op := by
  cases t with
  | reg r => cases op <;> cases r <;> rfl
  | hl | d8 => cases op <;> rfl

theorem ofForm_target (op : Op) (t : Target) : (Instr.ofForm op t).target = t := by
  cases t with
  | reg r => cases op <;> cases r <;> rfl
  | hl | d8 => cases op <;> rfl

/-- The row of a register form in the statements' tables: opcode, instruction, register. -/
def registerRow (op : Op) (r : Reg8) : Byte × Instr × Reg8 :=
  ((Instr.ofForm op (.reg r)).opcode, Instr.ofForm op (.reg r), r)

theorem addRegisterRows_eq : addRegisterRows = [.b, .c, .d, .e, .h, .l, .a].map (registerRow .add) := by
  decide

theorem adcRegisterRows_eq : adcRegisterRows = [.b, .c, .d, .e, .h, .l, .a].map (registerRow .adc) := by
  decide

/-- A register form is one byte long (R70). -/
theorem decodeStream_registerRow (op : Op) (r : Reg8) (rest : List Byte) :
    decodeStream ((registerRow op r).1 :: rest) = .ok (⟨(registerRow op r).2.1, none⟩, rest) := by
  have htarget : (Instr.ofForm op (.reg r)).target ≠ .d8 := by
    rw [ofForm_target]
    exact Target.noConfusion
  have himm : (Instr.ofForm op (.reg r)).takesImmediate = false :=
    Bool.eq_false_iff.mpr (mt (takesImmediate_iff _).mp htarget)
  exact decodeStream_one _ himm _ (decode_opcode _) rest

/-! ## ADD and ADC (spec/41_add_adc.md R120 to R137) -/

/-- ADD executes, with the operand and the accesses of its target. -/
theorem exec_ofForm_add (t : Target) (s : State) :
    exec (.ofForm .add t) s = .next (afterAdd s (s.fetchOperand t).1 t.length (operandAccesses s t)) := by
  rw [exec_add_adc _ s (.inl (ofForm_op .add t)), ofForm_op, ofForm_target, executeArith_eq, alu, add8_eq, nextPc_eq_ofNat]
  rfl

/-- ADC executes, with the operand and the accesses of its target. -/
theorem exec_ofForm_adc (t : Target) (s : State) :
    exec (.ofForm .adc t) s = .next (afterAdc s (s.fetchOperand t).1 t.length (operandAccesses s t)) := by
  rw [exec_add_adc _ s (.inr (ofForm_op .adc t)), ofForm_op, ofForm_target, executeArith_eq, alu, adc8_eq, nextPc_eq_ofNat]
  rfl

/-- Settles O30: the operand is the register of the row, and no access is made. -/
theorem addRegisterResult : Obligations.AddRegisterResult := by
  intro row hrow
  rw [addRegisterRows_eq] at hrow
  obtain ⟨r, _, rfl⟩ := List.mem_map.mp hrow
  exact ⟨decodeStream_registerRow .add r, exec_ofForm_add (.reg r)⟩

/-- Settles O31: the operand is read at pair hl. -/
theorem addIndirectResult : Obligations.AddIndirectResult := by
  refine ⟨decodeStream_one .addAIndHL rfl 0x86#8 rfl, fun s => ?_⟩
  rw [hlAddress_eq]
  exact exec_ofForm_add .hl s

/-- Settles O32: the operand is read at the byte after the opcode. -/
theorem addImmediateResult : Obligations.AddImmediateResult := by
  refine ⟨decodeStream_two .addAN8 rfl 0xC6#8 rfl, fun s => ?_⟩
  rw [immAddress_eq]
  exact exec_ofForm_add .d8 s

/-- Settles O33: as O30, with the carry folded in. -/
theorem adcRegisterResult : Obligations.AdcRegisterResult := by
  intro row hrow
  rw [adcRegisterRows_eq] at hrow
  obtain ⟨r, _, rfl⟩ := List.mem_map.mp hrow
  exact ⟨decodeStream_registerRow .adc r, exec_ofForm_adc (.reg r)⟩

/-- Settles O34: as O31, with the carry folded in. -/
theorem adcIndirectResult : Obligations.AdcIndirectResult := by
  refine ⟨decodeStream_one .adcAIndHL rfl 0x8E#8 rfl, fun s => ?_⟩
  rw [hlAddress_eq]
  exact exec_ofForm_adc .hl s

/-- Settles O35: as O32, with the carry folded in. -/
theorem adcImmediateResult : Obligations.AdcImmediateResult := by
  refine ⟨decodeStream_two .adcAN8 rfl 0xCE#8 rfl, fun s => ?_⟩
  rw [immAddress_eq]
  exact exec_ofForm_adc .d8 s

end Sys2Proof.Proofs

namespace Sys2Proof.Proofs

open Sys2Proof.Machine Sys2Proof.Statements Sys2Proof.Laws

/-! ## Fatal outcomes (spec/60_exceptions.md R190 to R193) -/

/-- A byte that decodes to no instruction halts the core with cause code 1, after the one read of that byte (R190, R193). -/
theorem step_of_decode_none {s : State} (hrun : s.run = .running) (hdecode : decode (s.busAnswer s.pc) = none) :
    step s = .next { afterRead s s.pc with run := .halted ⟨1#8, s.busAnswer s.pc, s.pc, none⟩ } := by
  have hfetch : decode s.fetchOpcode.1 = none := hdecode
  rw [step_of_running s hrun, hfetch]
  rfl

/-- Under the policy `fault`, a gated operation that the build does not implement raises Unimplemented in the state it is given,
with the instruction's own opcode byte in the record (R191). -/
theorem exec_of_fault {i : Instr} {s : State} {op : SubOp} (hop : i.op = op.toOp)
    (hmode : s.params.subtractMode = .unimplemented) (hpolicy : s.params.unimplementedPolicy = .fault) :
    exec i s = .next (s.raiseUnimplemented i.opcode op) := by
  rw [exec_sub_sbc i s op hop, executeSubtract_fault s _ op _ hmode hpolicy]

/-- Such a step halts the core with cause code 2: the opcode read is its one access, and the recorded byte is the byte read (R191, R193). -/
theorem step_of_fault {s : State} {i : Instr} {op : SubOp} (hrun : s.run = .running)
    (hdecode : decode (s.busAnswer s.pc) = some i) (hop : i.op = op.toOp)
    (hmode : s.params.subtractMode = .unimplemented) (hpolicy : s.params.unimplementedPolicy = .fault) :
    step s = .next { afterRead s s.pc with run := .halted ⟨2#8, s.busAnswer s.pc, s.pc, some op⟩ } := by
  have hexec : exec i (afterRead s s.pc) = .next ((afterRead s s.pc).raiseUnimplemented i.opcode op) :=
    exec_of_fault hop hmode hpolicy
  rw [step_of_decode_some hrun hdecode, hexec, ← opcode_of_decode _ i hdecode]
  rfl

/-- Settles O48: the two fatal steps. -/
theorem fatalOutcomeEntry : Obligations.FatalOutcomeEntry :=
  fun _ hrun => ⟨step_of_decode_none hrun, fun _ _ => step_of_fault hrun⟩

end Sys2Proof.Proofs

namespace Sys2Proof.Proofs

open Sys2Proof.Laws

/-! ## Decoding what was encoded, and encoding what was decoded (spec/30_encoding.md R70, R73) -/

theorem wellFormed_iff_isSome_eq (x : AsmInstr) : x.WellFormed ↔ x.imm.isSome = x.instr.takesImmediate :=
  beq_iff_eq

/-- Settles O18: the opcode byte decodes to its instruction, which takes an immediate exactly when one is spelled. -/
theorem decodeOfEncode : Obligations.DecodeOfEncode := by
  intro ⟨i, imm⟩ rest hx
  have htakes := (wellFormed_iff_isSome_eq ⟨i, imm⟩).mp hx
  cases imm with
  | none => exact decodeStream_one i htakes.symm i.opcode (decode_opcode i) rest
  | some v => exact decodeStream_two i htakes.symm i.opcode (decode_opcode i) v rest

theorem decodeStream_of_decode_none {opcode : Byte} (h : decode opcode = none) (rest : List Byte) :
    decodeStream (opcode :: rest) = .error (.unrecognised opcode) := by
  simp only [decodeStream, h]

theorem decodeStream_noImmediate {opcode : Byte} {i : Instr} (hdecode : decode opcode = some i)
    (htakes : i.takesImmediate = true) : decodeStream [opcode] = .error (.noImmediate i) := by
  simp only [decodeStream, hdecode, htakes]

/-- The inversion of `decodeStream`: what it accepts begins with an opcode byte, and an immediate follows where
the instruction takes one. -/
theorem decodeStream_cases {bytes rest : List Byte} {x : AsmInstr} (h : decodeStream bytes = .ok (x, rest)) :
    (x.instr.takesImmediate = false ∧ x.imm = none ∧ bytes = x.instr.opcode :: rest) ∨
      ∃ v, x.instr.takesImmediate = true ∧ x.imm = some v ∧ bytes = x.instr.opcode :: v :: rest := by
  match bytes with
  | [] => cases h
  | opcode :: tail =>
    cases hdecode : decode opcode with
    | none => rw [decodeStream_of_decode_none hdecode] at h; cases h
    | some i =>
      obtain rfl := opcode_of_decode opcode i hdecode
      cases htakes : i.takesImmediate with
      | false =>
        rw [decodeStream_one i htakes _ hdecode] at h
        cases h
        exact .inl ⟨htakes, rfl, rfl⟩
      | true =>
        match tail with
        | [] => rw [decodeStream_noImmediate hdecode htakes] at h; cases h
        | v :: tail =>
          rw [decodeStream_two i htakes _ hdecode] at h
          cases h
          exact .inr ⟨v, htakes, rfl, rfl⟩

/-- Settles O19: by the two shapes that the decoder accepts. -/
theorem encodeOfDecode : Obligations.EncodeOfDecode := by
  intro bytes rest x h
  rw [wellFormed_iff_isSome_eq]
  obtain ⟨htakes, himm, rfl⟩ | ⟨v, htakes, himm, rfl⟩ := decodeStream_cases h
  · exact ⟨by rw [himm, htakes]; rfl, by rw [encode, himm]; rfl⟩
  · exact ⟨by rw [himm, htakes]; rfl, by rw [encode, himm]; rfl⟩

/-- Settles O21: `0xCB` has no row, and the two sequences that end too early are named. -/
theorem decoderRejectsByName : Obligations.DecoderRejectsByName :=
  ⟨fun _ rest h => decodeStream_of_decode_none h rest, rfl, rfl,
    fun _ i hdecode htarget => decodeStream_noImmediate hdecode ((takesImmediate_iff i).mpr htarget)⟩

/-- Settles O22. -/
theorem writtenOutWords : Obligations.WrittenOutWords := by
  unfold Obligations.WrittenOutWords
  decide

/-! ## The fields of an opcode byte (spec/30_encoding.md R71 to R74) -/

/-- A byte is its three fields. -/
theorem fields_append (b : Byte) : b.extractLsb' 5 3 ++ b.extractLsb' 3 2 ++ b.extractLsb' 0 3 = b := by
  have hhigh : b.extractLsb' 5 3 ++ b.extractLsb' 3 2 = b.extractLsb' 3 5 :=
    BitVec.extractLsb'_append_extractLsb'_eq_extractLsb' rfl
  have hall : b.extractLsb' 3 5 ++ b.extractLsb' 0 3 = b.extractLsb' 0 8 :=
    BitVec.extractLsb'_append_extractLsb'_eq_extractLsb' rfl
  rw [hhigh, hall, BitVec.extractLsb'_eq_self]

/-- A byte with the bit condition of format F1 is the F1 encoding of its fields. -/
theorem encodeF1_fields {b : Byte} (h : b.extractLsb' 5 3 = 0b100#3) :
    encodeF1 (0b0#1 ++ b.extractLsb' 3 2) (b.extractLsb' 0 3) = b := by
  have hbits : ∀ (f : BitVec 2) (r : BitVec 3), encodeF1 (0b0#1 ++ f) r = 0b100#3 ++ f ++ r := by decide
  rw [hbits, ← h]
  exact fields_append b

/-- A byte with the bit conditions of format F2 is the F2 encoding of its operation field. -/
theorem encodeF2_fields {b : Byte} (hhigh : b.extractLsb' 5 3 = 0b110#3) (hlow : b.extractLsb' 0 3 = 0b110#3) :
    encodeF2 (0b0#1 ++ b.extractLsb' 3 2) = b := by
  have hbits : ∀ f : BitVec 2, encodeF2 (0b0#1 ++ f) = 0b110#3 ++ f ++ 0b110#3 := by decide
  have happend := fields_append b
  rw [hhigh, hlow] at happend
  rw [hbits, happend]

/-- The operation that the field `op[4:3]` codes (R72). -/
def fieldOp (f : BitVec 2) : Op :=
  match f.toNat with
  | 0 => .add
  | 1 => .adc
  | 2 => .sub
  | _ => .sbc

theorem code_fieldOp : ∀ f : BitVec 2, (fieldOp f).code = 0b0#1 ++ f := by
  decide

/-- The field `rrr` that format F1 gives a target; D8 has none (R72). -/
def targetField : Target → Option (BitVec 3)
  | .reg r => some r.code
  | .hl => some 0b110#3
  | .d8 => none

theorem opcode_of_targetField {i : Instr} {rrr : BitVec 3} (h : targetField i.target = some rrr) :
    i.opcode = encodeF1 i.op.code rrr := by
  cases ht : i.target with
  | reg r => rw [ht] at h; cases h; simp only [Instr.opcode, ht]
  | hl => rw [ht] at h; cases h; simp only [Instr.opcode, ht]
  | d8 => rw [ht] at h; cases h

theorem opcode_of_d8 {i : Instr} (h : i.target = .d8) : i.opcode = encodeF2 i.op.code := by
  simp only [Instr.opcode, h]

/-- The target that the field `op[2:0]` of format F1 codes (R72). -/
def fieldTarget (rrr : BitVec 3) : Target :=
  match rrr.toNat with
  | 0 => .reg .b
  | 1 => .reg .c
  | 2 => .reg .d
  | 3 => .reg .e
  | 4 => .reg .h
  | 5 => .reg .l
  | 6 => .hl
  | _ => .reg .a

theorem targetField_fieldTarget : ∀ rrr : BitVec 3, targetField (fieldTarget rrr) = some rrr := by
  decide

/-- The field codes a target of format F1 without loss. -/
theorem fieldTarget_eq_iff (rrr : BitVec 3) (t : Target) : fieldTarget rrr = t ↔ targetField t = some rrr := by
  constructor
  · rintro rfl
    exact targetField_fieldTarget rrr
  · intro h
    cases t with
    | reg r => cases r <;> cases h <;> rfl
    | hl => cases h; rfl
    | d8 => cases h

theorem eq_d8_of_targetField_eq_none {t : Target} (h : targetField t = none) : t = .d8 := by
  cases t with
  | reg r => cases h
  | hl => cases h
  | d8 => rfl

/-- The fields of an F1 encoding are those it was made from (R71). -/
theorem fields_encodeF1 (op : Op) (rrr : BitVec 3) :
    (encodeF1 op.code rrr).extractLsb' 5 3 = 0b100#3 ∧
      (encodeF1 op.code rrr).extractLsb' 3 2 = op.code.extractLsb' 0 2 ∧
      (encodeF1 op.code rrr).extractLsb' 0 3 = rrr := by
  cases op <;> revert rrr <;> decide

/-- The fields of an F2 encoding (R73). -/
theorem fields_encodeF2 (op : Op) :
    (encodeF2 op.code).extractLsb' 5 3 = 0b110#3 ∧
      (encodeF2 op.code).extractLsb' 3 2 = op.code.extractLsb' 0 2 ∧
      (encodeF2 op.code).extractLsb' 0 3 = 0b110#3 := by
  cases op <;> decide

/-- A byte with the bit condition of format F1 decodes to the operation and the target that its fields code (R74). -/
theorem decode_of_fieldsF1 {b : Byte} (h : b.extractLsb' 5 3 = 0b100#3) :
    decode b = some (.ofForm (fieldOp (b.extractLsb' 3 2)) (fieldTarget (b.extractLsb' 0 3))) := by
  have hfield := targetField_fieldTarget (b.extractLsb' 0 3)
  rw [← ofForm_target (fieldOp (b.extractLsb' 3 2)) (fieldTarget (b.extractLsb' 0 3))] at hfield
  have hopcode := opcode_of_targetField hfield
  rw [ofForm_op, code_fieldOp, encodeF1_fields h] at hopcode
  rw [← decode_opcode, hopcode]

/-- A byte with the bit conditions of format F2 decodes to the immediate form of the operation that its field codes (R74). -/
theorem decode_of_fieldsF2 {b : Byte} (hhigh : b.extractLsb' 5 3 = 0b110#3) (hlow : b.extractLsb' 0 3 = 0b110#3) :
    decode b = some (.ofForm (fieldOp (b.extractLsb' 3 2)) .d8) := by
  have hopcode := opcode_of_d8 (ofForm_target (fieldOp (b.extractLsb' 3 2)) .d8)
  rw [ofForm_op, code_fieldOp, encodeF2_fields hhigh hlow] at hopcode
  rw [← decode_opcode, hopcode]

/-- A byte that decodes meets the bit condition of one of the two formats. -/
theorem fields_of_decode_some {opcode : Byte} {i : Instr} (h : decode opcode = some i) :
    opcode.extractLsb' 5 3 = 0b100#3 ∨ opcode.extractLsb' 5 3 = 0b110#3 ∧ opcode.extractLsb' 0 3 = 0b110#3 := by
  obtain rfl := opcode_of_decode opcode i h
  cases hfield : targetField i.target with
  | some rrr =>
    rw [opcode_of_targetField hfield]
    exact .inl (fields_encodeF1 i.op rrr).1
  | none =>
    have hd8 := eq_d8_of_targetField_eq_none hfield
    obtain ⟨hhigh, _, hlow⟩ := fields_encodeF2 i.op
    rw [opcode_of_d8 hd8]
    exact .inr ⟨hhigh, hlow⟩

/-- Settles O17: the fields of a byte that meets a format's bit condition name the instruction it decodes to, and a byte that decodes
meets one. -/
theorem decodeReadsTheFields : Obligations.DecodeReadsTheFields := by
  intro opcode
  refine ⟨fun hF1 => ⟨_, decode_of_fieldsF1 hF1, ?_, fun r => ?_, ?_⟩,
    fun ⟨hhigh, hlow⟩ => ⟨_, decode_of_fieldsF2 hhigh hlow, ?_, ofForm_target _ .d8⟩, fun hF1 hF2 => ?_⟩
  · rw [ofForm_op, code_fieldOp]
  · rw [ofForm_target, fieldTarget_eq_iff, eq_comm]
    exact Option.some_inj
  · rw [ofForm_target, fieldTarget_eq_iff, eq_comm]
    exact Option.some_inj
  · rw [ofForm_op, code_fieldOp]
  · cases hdecode : decode opcode with
    | none => rfl
    | some i => exact absurd (fields_of_decode_some hdecode) (not_or.mpr ⟨hF1, hF2⟩)

end Sys2Proof.Proofs

namespace Sys2Proof.Proofs

open Sys2Proof.Machine Sys2Proof.Statements Sys2Proof.Laws

/-! ## What a step does, said once (spec/40_execution_cycle.md R91, R92, R100) -/

/-- The state after a step that executes `i`. -/
def executedState (s : State) (i : Instr) : State :=
  { s with
    a := (alu i.op s.a ((afterRead s s.pc).fetchOperand i.target).1 s.flags.c).res
    flags := (alu i.op s.a ((afterRead s s.pc).fetchOperand i.target).1 s.flags.c).flags
    pc := nextPc s.pc i.target.length
    busLog := s.busLog ++ s.stepAccesses }

/-- The state after a step that ends in a fatal outcome: the opcode has been read, and the record stands. -/
def faultedState (s : State) (r : FaultRecord) : State :=
  { afterRead s s.pc with run := .halted r }

/-- A Running core takes one of four steps, told apart by the byte at pc and the build. -/
theorem step_of_running_cases {s : State} (hrun : s.run = .running) :
    (decode (s.busAnswer s.pc) = none ∧ step s = .next (faultedState s ⟨1#8, s.busAnswer s.pc, s.pc, none⟩)) ∨
      ∃ i, decode (s.busAnswer s.pc) = some i ∧
        ((s.params.implements i.op = true ∧ step s = .next (executedState s i)) ∨
          (s.params.implements i.op = false ∧ s.params.unimplementedPolicy = .fault ∧
            ∃ op, i.op = SubOp.toOp op ∧ s.params.subtractMode = .unimplemented ∧
              step s = .next (faultedState s ⟨2#8, s.busAnswer s.pc, s.pc, some op⟩)) ∨
          (s.params.implements i.op = false ∧ s.params.unimplementedPolicy = .placeholder ∧
            step s = .next (afterRead s s.pc))) := by
  cases hdecode : decode (s.busAnswer s.pc) with
  | none => exact .inl ⟨rfl, step_of_decode_none hrun hdecode⟩
  | some i =>
    refine .inr ⟨i, rfl, ?_⟩
    cases himp : s.params.implements i.op with
    | true => exact .inl ⟨rfl, step_of_implements hrun hdecode himp⟩
    | false =>
      obtain ⟨hmode, op, hop⟩ := (implements_eq_false s.params i.op).mp himp
      cases hpolicy : s.params.unimplementedPolicy with
      | fault => exact .inr (.inl ⟨rfl, rfl, op, hop, hmode, step_of_fault hrun hdecode hop hmode hpolicy⟩)
      | placeholder => exact .inr (.inr ⟨rfl, rfl, step_of_placeholder hrun hpolicy himp hdecode⟩)

/-- The inversion of `step`: the instruction executed, or a fault was taken whose record is this step's, or nothing but the opcode
read happened. -/
theorem step_next_cases {s t : State} (h : step s = .next t) :
    s.run = .running ∧
      ((∃ i, t = executedState s i) ∨
        (∃ r, r.opcode = s.busAnswer s.pc ∧ r.address = s.pc ∧ r.Consistent s.params ∧ t = faultedState s r) ∨
        t = afterRead s s.pc) := by
  have hrun := (step_cases s t h).1
  refine ⟨hrun, ?_⟩
  obtain ⟨hdecode, hs⟩ | ⟨i, hdecode, ⟨_, hs⟩ | ⟨_, hpolicy, op, hop, hmode, hs⟩ | ⟨_, _, hs⟩⟩ :=
    step_of_running_cases hrun <;>
    (rw [hs] at h; cases h)
  · exact .inr (.inl ⟨_, rfl, rfl, .inl ⟨rfl, rfl, hdecode⟩, rfl⟩)
  · exact .inl ⟨i, rfl⟩
  · exact .inr (.inl ⟨_, rfl, rfl, .inr ⟨rfl, hmode, hpolicy, i, op, hdecode, hop, rfl⟩, rfl⟩)
  · exact .inr (.inr rfl)

/-- No step stores into plain memory (spec/20_memory.md R55), and none changes the build (spec/00_scope.md R10). -/
theorem step_mem_params {s t : State} (h : step s = .next t) : t.mem = s.mem ∧ t.params = s.params := by
  obtain ⟨_, ⟨i, rfl⟩ | ⟨r, _, _, _, rfl⟩ | rfl⟩ := step_next_cases h
  · exact ⟨rfl, rfl⟩
  · exact ⟨rfl, rfl⟩
  · exact ⟨rfl, rfl⟩

/-- The accesses of a step are one or two reads, the first of them of pc (spec/20_memory.md R57, R58). -/
theorem stepAccesses_eq_reads (s : State) :
    ∃ more : List Word, s.stepAccesses = (s.pc :: more).map .read ∧ more.length ≤ 1 := by
  cases hdecode : decode (s.busAnswer s.pc) with
  | none => exact ⟨[], stepAccesses_of_decode_none hdecode, Nat.zero_le 1⟩
  | some i =>
    rw [stepAccesses_of_decode_some hdecode]
    cases himp : s.params.implements i.op with
    | false => exact ⟨[], by rw [execAccesses_of_not_implements himp]; rfl, Nat.zero_le 1⟩
    | true =>
      rw [execAccesses_of_implements himp]
      cases i.target with
      | reg r => exact ⟨[], rfl, Nat.zero_le 1⟩
      | hl => exact ⟨[s.getPair .hl], rfl, le_rfl⟩
      | d8 => exact ⟨[nextPc s.pc 1], rfl, le_rfl⟩

/-- Settles O15: by what every step leaves, and by the accesses it adds. -/
theorem coreNeverWritesTheBus : Obligations.CoreNeverWritesTheBus := by
  intro s t h
  obtain ⟨hmem, _⟩ := step_mem_params h
  obtain ⟨more, haccesses, hlength⟩ := stepAccesses_eq_reads s
  refine ⟨hmem, fun address => by rw [State.peek, hmem, State.peek], s.pc :: more, ?_, Nat.succ_le_succ hlength, rfl⟩
  rw [step_busLog h, haccesses]

/-- Settles O52: of the three kinds of step, the fatal one alone leaves the core Halted. -/
theorem faultIsPrecise : Obligations.FaultIsPrecise := by
  intro s t r h hhalted
  obtain ⟨hrun, ⟨i, rfl⟩ | ⟨q, hopcode, haddress, hconsistent, rfl⟩ | rfl⟩ := step_next_cases h
  · exact absurd (hrun.symm.trans hhalted) RunState.noConfusion
  · cases hhalted
    exact ⟨hopcode, haddress, hconsistent, rfl⟩
  · exact absurd (hrun.symm.trans hhalted) RunState.noConfusion

/-- Settles O51: two of the four steps leave the core Halted, and the byte at pc and the build tell them from the others. -/
theorem runningCoreAlwaysSteps : Obligations.RunningCoreAlwaysSteps := by
  intro s hrun
  obtain ⟨hdecode, hs⟩ | ⟨i, hdecode, ⟨himp, hs⟩ | ⟨himp, hpolicy, _, _, _, hs⟩ | ⟨_, hpolicy, hs⟩⟩ :=
    step_of_running_cases hrun
  · exact ⟨_, hs, fun _ => .inl hdecode, fun _ => RunState.noConfusion⟩
  · simp [hs, hdecode, himp, executedState, hrun]
  · simp [hs, hdecode, himp, hpolicy, faultedState]
  · simp [hs, hdecode, hpolicy, afterRead, hrun]

/-- Settles O46. -/
theorem stepRunsTheDecodedInstruction : Obligations.StepRunsTheDecodedInstruction :=
  fun _ _ => step_of_decode_some

/-- Settles O11: a reset core is Running, at pc 0x0000, on the bus it had. -/
theorem firstFetchAfterReset : Obligations.FirstFetchAfterReset := by
  intro s
  refine ⟨?_, fun hdecode => step_of_decode_none (s := s.resetCore) rfl hdecode, rfl⟩
  obtain ⟨t, ht, _⟩ := runningCoreAlwaysSteps s.resetCore rfl
  obtain ⟨more, haccesses, _⟩ := stepAccesses_eq_reads s.resetCore
  refine ⟨t, more.map .read, ht, ?_⟩
  rw [step_busLog ht, haccesses]
  rfl

end Sys2Proof.Proofs

namespace Sys2Proof.Proofs

open Sys2Proof.Machine Sys2Proof.Statements Sys2Proof.Laws

/-! ## What an action of the host leaves unchanged (spec/60_exceptions.md R198) -/

section
variable (s : State)

@[simp] theorem setPair_run (p : Pair) (v : Word) : (s.setPair p v).run = s.run := by
  cases p <;> simp [State.setPair, State.setF]

@[simp] theorem setPair_mem (p : Pair) (v : Word) : (s.setPair p v).mem = s.mem := by
  cases p <;> simp [State.setPair, State.setF]

@[simp] theorem setPair_busLog (p : Pair) (v : Word) : (s.setPair p v).busLog = s.busLog := by
  cases p <;> simp [State.setPair, State.setF]

@[simp] theorem setPair_params (p : Pair) (v : Word) : (s.setPair p v).params = s.params := by
  cases p <;> simp [State.setPair, State.setF]

@[simp] theorem hostWrite8_run (r : HostReg8) (v : Byte) : (s.hostWrite8 r v).run = s.run := by
  cases r <;> simp [State.hostWrite8, State.setF]

@[simp] theorem hostWrite8_mem (r : HostReg8) (v : Byte) : (s.hostWrite8 r v).mem = s.mem := by
  cases r <;> simp [State.hostWrite8, State.setF]

@[simp] theorem hostWrite8_busLog (r : HostReg8) (v : Byte) : (s.hostWrite8 r v).busLog = s.busLog := by
  cases r <;> simp [State.hostWrite8, State.setF]

@[simp] theorem hostWrite8_params (r : HostReg8) (v : Byte) : (s.hostWrite8 r v).params = s.params := by
  cases r <;> simp [State.hostWrite8, State.setF]

/-- No action of the host or of the platform is an access of the core. -/
@[simp] theorem hostAct_busLog (x : HostAction) : (s.hostAct x).busLog = s.busLog := by
  cases x <;> simp [State.hostAct, State.platformWrite, State.platformRelease]

/-- No action changes the build (spec/00_scope.md R10). -/
@[simp] theorem hostAct_params (x : HostAction) : (s.hostAct x).params = s.params := by
  cases x <;> simp [State.hostAct, State.platformWrite, State.platformRelease]

/-- Of the actions, reset alone changes the run state (spec/60_exceptions.md R196). -/
theorem hostAct_run_of_ne_reset {x : HostAction} (h : x ≠ .reset) : (s.hostAct x).run = s.run := by
  cases x with
  | reset => exact absurd rfl h
  | write8 r v => exact hostWrite8_run s r v
  | writePair p v => exact setPair_run s p v
  | writeFlag | writePc | writeSp | stopStepping | placeByte | releaseByte => rfl

/-- Every action keeps the memory canonical: the two of the platform by its own laws, and the others do not touch it. -/
theorem hostAct_mem_wf (x : HostAction) (h : Memory.wf s.mem) : Memory.wf (s.hostAct x).mem := by
  cases x with
  | placeByte address v => exact Memory.platformWrite_wf s address v h
  | releaseByte address => exact Memory.platformRelease_wf s address h
  | write8 r v => exact (hostWrite8_mem s r v).symm ▸ h
  | writePair p v => exact (setPair_mem s p v).symm ▸ h
  | writeFlag | writePc | writeSp | stopStepping | reset => exact h

end

/-- Settles O50. -/
theorem haltedUntilReset : Obligations.HaltedUntilReset := by
  intro s r hhalted
  refine ⟨?_, ?_, fun x hx => ?_, rfl⟩
  · simp only [step, hhalted]
  · simp only [State.hostFaultRecord, hhalted]
  · rw [hostAct_run_of_ne_reset s hx, hhalted]

/-! ## The invariant (spec/20_memory.md R50, R55, spec/60_exceptions.md R190 to R192) -/

/-- Settles O57: the memory and the build stay, a fault is precise, and the accesses added are reads. -/
theorem stepKeepsInv : Obligations.StepKeepsInv := by
  intro s t hinv h
  obtain ⟨hmem, hparams⟩ := step_mem_params h
  refine ⟨hmem ▸ hinv.memWf, fun r hhalted => ?_, fun x hx => ?_⟩
  · obtain ⟨_, _, hconsistent, _⟩ := faultIsPrecise s t r h hhalted
    exact hparams ▸ hconsistent
  · obtain ⟨more, haccesses, _⟩ := stepAccesses_eq_reads s
    rw [step_busLog h, haccesses, List.mem_append, List.mem_map] at hx
    obtain hx | ⟨address, _, rfl⟩ := hx
    · exact hinv.readsOnly x hx
    · rfl

/-- Settles O58: a reset discards the record, and no other action touches the run state. -/
theorem hostActionKeepsInv : Obligations.HostActionKeepsInv := by
  intro s x hinv
  refine ⟨hostAct_mem_wf s x hinv.memWf, fun r hhalted => ?_, fun y hy => ?_⟩
  · rw [hostAct_params]
    by_cases hx : x = .reset
    · rw [hx] at hhalted
      cases hhalted
    · rw [hostAct_run_of_ne_reset s hx] at hhalted
      exact hinv.recordConsistent r hhalted
  · rw [hostAct_busLog] at hy
    exact hinv.readsOnly y hy

/-- Settles O56: nothing is placed, no fault is recorded, no access is made. -/
theorem resetMeetsInv : Obligations.ResetMeetsInv :=
  ⟨Memory.reset_wf, fun _ h => (RunState.noConfusion h), fun _ h => absurd h List.not_mem_nil⟩

/-- What every event keeps holds along every run from where it holds. -/
theorem reaches_induction {P : State → Prop} (hevent : ∀ t u, State.Event t u → P t → P u) {s t : State}
    (hs : P s) (h : s.Reaches t) : P t := by
  induction h with
  | refl => exact hs
  | tail t u _ e ih => exact hevent t u e ih

/-- Settles O59: both kinds of event keep the invariant. -/
theorem invHoldsAlongRuns : Obligations.InvHoldsAlongRuns := by
  intro s t hinv hreaches
  refine reaches_induction (fun t u e ht => ?_) hinv hreaches
  cases e with
  | step _ h => exact stepKeepsInv t u ht h
  | host x => exact hostActionKeepsInv t x ht

/-- From `s` to `t` the build has stayed, and the core has added reads to the log and taken nothing back. -/
def OnlyAddsReads (s t : State) : Prop :=
  t.params = s.params ∧ ∃ reads : List Word, t.busLog = s.busLog ++ reads.map .read

theorem onlyAddsReads_refl (s : State) : OnlyAddsReads s s :=
  ⟨rfl, [], (List.append_nil _).symm⟩

theorem onlyAddsReads_trans {s t u : State} (hst : OnlyAddsReads s t) (htu : OnlyAddsReads t u) : OnlyAddsReads s u := by
  obtain ⟨hparams, reads, hlog⟩ := hst
  obtain ⟨hparams', more, hlog'⟩ := htu
  exact ⟨hparams'.trans hparams, reads ++ more, by rw [hlog', hlog, List.map_append, List.append_assoc]⟩

theorem event_onlyAddsReads {s t : State} (e : State.Event s t) : OnlyAddsReads s t := by
  cases e with
  | step _ h =>
    obtain ⟨more, haccesses, _⟩ := stepAccesses_eq_reads s
    exact ⟨(step_mem_params h).2, s.pc :: more, by rw [step_busLog h, haccesses]⟩
  | host x => exact ⟨hostAct_params s x, [], (hostAct_busLog s x).trans (List.append_nil _).symm⟩

/-- Settles O60: the reads of the run's events, one after the other. -/
theorem runsOnlyAddReads : Obligations.RunsOnlyAddReads :=
  fun s _ hreaches =>
    reaches_induction (P := OnlyAddsReads s) (fun _ _ e ht => onlyAddsReads_trans ht (event_onlyAddsReads e))
      (onlyAddsReads_refl s) hreaches

end Sys2Proof.Proofs

namespace Sys2Proof.Proofs

open Sys2Proof.Machine Sys2Proof.Statements Sys2Proof.Laws

/-! ## The arithmetic unit with carry, and on subtractions (spec/41_add_adc.md R112, R113, spec/42_sub_sbc.md R150, R151) -/

theorem lowHalf_eq_ones_iff (v : Byte) : lowHalf v = 0xF#4 ↔ v.toNat % 16 = 15 := by
  rw [← BitVec.toNat_inj, lowHalf, BitVec.extractLsb'_toNat]
  rfl

/-- Settles O25: folding the carry into an operand with low nibble 0xF leaves low nibble 0, and into any other adds one to it. -/
theorem addWithCarryHalfCarryClass : Obligations.AddWithCarryHalfCarryClass := by
  intro acc operand cin
  rw [adc8_eq, lowHalf_eq_ones_iff, decide_eq_decide, decide_eq_false_iff_not]
  cases cin with
  | false => simp
  | true => simp only [Bool.toNat_true, true_and, forall_const]; omega

/-- Settles O26: the fold changes the sum by a multiple of 256, which its overflow accounts for. -/
theorem addWithCarrySum : Obligations.AddWithCarrySum := by
  intro acc operand cin
  rw [adc8_eq, BitVec.toNat_ofNat, decide_eq_true_iff]
  have hacc := acc.isLt
  have hcin := Bool.toNat_le cin
  omega

/-- A difference of bytes, in exact arithmetic on the numbers. -/
theorem sub_eq_ofNat (x y : Byte) : x - y = BitVec.ofNat 8 ((x.toNat + 256 - y.toNat) % 256) := by
  apply BitVec.eq_of_toNat_eq
  rw [BitVec.toNat_sub, BitVec.toNat_ofNat]
  omega

/-- What `sub8` answers, in exact arithmetic on the numbers (R150). -/
theorem sub8_eq (acc operand : Byte) (cin : Bool) :
    sub8 acc operand cin =
      ⟨BitVec.ofNat 8 ((acc.toNat + 256 - operand.toNat) % 256),
        ⟨decide ((acc.toNat + 256 - operand.toNat) % 256 = 0), true,
          decide (acc.toNat % 16 < operand.toNat % 16), decide (acc.toNat < operand.toNat)⟩⟩ := by
  simp only [sub8, sub_eq_ofNat, ofNat_mod_256, ofNat_beq_zero, lowNibble_eq_mod]

/-- What `sbc8` answers, in exact arithmetic on the numbers (R151). -/
theorem sbc8_eq (acc operand : Byte) (cin : Bool) :
    sbc8 acc operand cin =
      ⟨BitVec.ofNat 8 ((acc.toNat + 256 - (operand.toNat + cin.toNat) % 256) % 256),
        ⟨decide ((acc.toNat + 256 - (operand.toNat + cin.toNat) % 256) % 256 = 0), true,
          decide (acc.toNat % 16 < (operand.toNat + cin.toNat) % 256 % 16),
          decide (operand.toNat + cin.toNat > 255 ∨ acc.toNat < (operand.toNat + cin.toNat) % 256)⟩⟩ := by
  simp only [sbc8, sub_eq_ofNat, ofNat_mod_256, ofNat_beq_zero, lowNibble_eq_mod, intermediate_toNat, firstOverflow_eq,
    Bool.decide_or]

/-- Settles O27: the difference is zero exactly for equal bytes. -/
theorem subtractComputes : Obligations.SubtractComputes := by
  intro acc operand cin
  have hacc := acc.isLt
  have hoperand := operand.isLt
  rw [sub8_eq, BitVec.toNat_ofNat, ← BitVec.toNat_inj]
  simp only [decide_eq_true_iff, and_true]
  omega

/-- Settles O28: as for ADC, the fold changes the difference by a multiple of 256, and the half-borrow in one class alone. -/
theorem subtractWithCarryComputes : Obligations.SubtractWithCarryComputes := by
  intro acc operand cin
  have hacc := acc.isLt
  have hoperand := operand.isLt
  have hcin := Bool.toNat_le cin
  rw [lowHalf_eq_ones_iff]
  refine ⟨?_, beq_iff_eq, rfl, ?_⟩
  · rw [sbc8_eq, BitVec.toNat_ofNat]
    omega
  rw [sbc8_eq]
  simp only [decide_eq_true_iff, decide_eq_false_iff_not]
  cases cin with
  | false =>
    simp only [Bool.toNat_false, Bool.false_eq_true, false_and, not_false_eq_true, forall_const, false_implies, and_true,
      Nat.add_zero]
    omega
  | true => simp only [Bool.toNat_true, true_and, forall_const]; omega

theorem intermediate_of_clear_carry (operand : Byte) : intermediate operand false = operand := by
  apply BitVec.eq_of_toNat_eq
  rw [intermediate_toNat]
  exact Nat.mod_eq_of_lt operand.isLt

theorem firstOverflow_of_clear_carry (operand : Byte) : firstOverflow operand false = false := by
  rw [firstOverflow_eq, decide_eq_false_iff_not]
  exact Nat.not_lt.mpr (Nat.le_of_lt_succ operand.isLt)

/-- Settles O29: with a clear carry the folded operand is the operand, and the fold does not overflow. -/
theorem clearCarryMakesNoDifference : Obligations.ClearCarryMakesNoDifference := by
  intro acc operand cin
  constructor
  · rw [adc8, intermediate_of_clear_carry, firstOverflow_of_clear_carry, add8]
    rfl
  · rw [sbc8, intermediate_of_clear_carry, firstOverflow_of_clear_carry, sub8]
    rfl

/-! ## SUB and SBC of the symmetric build (spec/42_sub_sbc.md R160 to R177) -/

theorem subRegisterRows_eq : subRegisterRows = [.b, .c, .d, .e, .h, .l, .a].map (registerRow .sub) := by
  decide

theorem sbcRegisterRows_eq : sbcRegisterRows = [.b, .c, .d, .e, .h, .l, .a].map (registerRow .sbc) := by
  decide

theorem implements_of_symmetric {p : Params} (h : p.subtractMode = .symmetric) (op : Op) : p.implements op = true := by
  cases op <;> simp [Params.implements, h]

/-- In the symmetric build SUB executes, with the operand and the accesses of its target. -/
theorem exec_ofForm_sub (t : Target) {s : State} (h : s.params.subtractMode = .symmetric) :
    exec (.ofForm .sub t) s = .next (afterSub s (s.fetchOperand t).1 t.length (operandAccesses s t)) := by
  rw [exec_of_implements _ s (implements_of_symmetric h _), ofForm_op, ofForm_target, executeArith_eq, alu, sub8_eq,
    nextPc_eq_ofNat]
  rfl

/-- In the symmetric build SBC executes, with the operand and the accesses of its target. -/
theorem exec_ofForm_sbc (t : Target) {s : State} (h : s.params.subtractMode = .symmetric) :
    exec (.ofForm .sbc t) s = .next (afterSbc s (s.fetchOperand t).1 t.length (operandAccesses s t)) := by
  rw [exec_of_implements _ s (implements_of_symmetric h _), ofForm_op, ofForm_target, executeArith_eq, alu, sbc8_eq,
    nextPc_eq_ofNat]
  rfl

/-- Settles O36: the operand is the register of the row, and no access is made. -/
theorem subRegisterResult : Obligations.SubRegisterResult := by
  intro row hrow
  rw [subRegisterRows_eq] at hrow
  obtain ⟨r, _, rfl⟩ := List.mem_map.mp hrow
  exact ⟨decodeStream_registerRow .sub r, fun _ => exec_ofForm_sub (.reg r)⟩

/-- Settles O37: the operand is read at pair hl. -/
theorem subIndirectResult : Obligations.SubIndirectResult := by
  refine ⟨decodeStream_one .subAIndHL rfl 0x96#8 rfl, fun s h => ?_⟩
  rw [hlAddress_eq]
  exact exec_ofForm_sub .hl h

/-- Settles O38: the operand is read at the byte after the opcode. -/
theorem subImmediateResult : Obligations.SubImmediateResult := by
  refine ⟨decodeStream_two .subAN8 rfl 0xD6#8 rfl, fun s h => ?_⟩
  rw [immAddress_eq]
  exact exec_ofForm_sub .d8 h

/-- Settles O39: as O36, with the carry folded in. -/
theorem sbcRegisterResult : Obligations.SbcRegisterResult := by
  intro row hrow
  rw [sbcRegisterRows_eq] at hrow
  obtain ⟨r, _, rfl⟩ := List.mem_map.mp hrow
  exact ⟨decodeStream_registerRow .sbc r, fun _ => exec_ofForm_sbc (.reg r)⟩

/-- Settles O40: as O37, with the carry folded in. -/
theorem sbcIndirectResult : Obligations.SbcIndirectResult := by
  refine ⟨decodeStream_one .sbcAIndHL rfl 0x9E#8 rfl, fun s h => ?_⟩
  rw [hlAddress_eq]
  exact exec_ofForm_sbc .hl h

/-- Settles O41: as O38, with the carry folded in. -/
theorem sbcImmediateResult : Obligations.SbcImmediateResult := by
  refine ⟨decodeStream_two .sbcAN8 rfl 0xDE#8 rfl, fun s h => ?_⟩
  rw [immAddress_eq]
  exact exec_ofForm_sbc .d8 h

/-- Each gated row is an instruction's opcode byte, and names its operation. -/
theorem gatedRows_name_instr :
    ∀ row ∈ gatedSubRows ++ gatedSbcRows, row.1 = row.2.1.opcode ∧ row.2.1.op = row.2.2.toOp := by
  decide

/-- Settles O42: the two policies of a build without subtraction. -/
theorem unimplementedSubtract : Obligations.UnimplementedSubtract := by
  intro row hrow
  obtain ⟨hopcode, hop⟩ := gatedRows_name_instr row hrow
  rw [hopcode]
  refine ⟨decode_opcode _, fun s hmode => ⟨exec_of_fault hop hmode, fun hpolicy => exec_of_placeholder hpolicy ?_⟩⟩
  exact (implements_eq_false _ _).mpr ⟨hmode, _, hop⟩

/-! ## The accumulator as its own operand (spec/41_add_adc.md R127, spec/42_sub_sbc.md R167, R176) -/

/-- A bit of a byte, by division. -/
theorem getLsbD_eq_decide (v : Byte) (n : Nat) : v.getLsbD n = decide (v.toNat / 2 ^ n % 2 = 1) := by
  rw [← BitVec.testBit_toNat, Nat.testBit_eq_decide_div_mod_eq]

/-- A byte added to itself is doubled, and the carries are the bits that leave each half. -/
theorem add8_self (v : Byte) (cin : Bool) :
    (add8 v v cin).res = v <<< 1 ∧ (add8 v v cin).flags.h = v.getLsbD 3 ∧ (add8 v v cin).flags.c = v.getLsbD 7 ∧
      ((add8 v v cin).flags.z = true ↔ v = 0x00#8 ∨ v = 0x80#8) ∧ (add8 v v cin).flags.n = false := by
  have hv := v.isLt
  rw [add8_eq, getLsbD_eq_decide, getLsbD_eq_decide, ← BitVec.toNat_inj, ← BitVec.toNat_inj, ← BitVec.toNat_inj]
  simp only [BitVec.toNat_ofNat, BitVec.toNat_shiftLeft, Nat.shiftLeft_eq, decide_eq_decide, decide_eq_true_iff, and_true]
  omega

/-- A byte subtracted from itself leaves zero, and borrows nothing. -/
theorem sub8_self (v : Byte) (cin : Bool) : sub8 v v cin = ⟨0x00#8, ⟨true, true, false, false⟩⟩ := by
  simp [sub8]

/-- With a carry in, a byte subtracted from itself borrows, from the high half alone when the fold empties the low half. -/
theorem sbc8_self_of_carry (v : Byte) {cin : Bool} (hcin : cin = true) :
    (sbc8 v v cin).res = 0xFF#8 ∧ (sbc8 v v cin).flags.c = true ∧
      ((sbc8 v v cin).flags.h = true ↔ lowHalf v ≠ 0xF#4) := by
  subst hcin
  have hv := v.isLt
  rw [Ne, lowHalf_eq_ones_iff, sbc8_eq, ← BitVec.toNat_inj]
  simp only [BitVec.toNat_ofNat, decide_eq_true_iff, Bool.toNat_true]
  omega

/-- An operation of the accumulator on itself that answers zero without borrow leaves `a` clear and `f` with Z and N. -/
theorem executeArith_self_eq_zero {s : State} {op : Op}
    (h : alu op s.a s.a s.flags.c = ⟨0x00#8, ⟨true, true, false, false⟩⟩) :
    (s.executeArith op (.reg .a)).a = 0x00#8 ∧ (s.executeArith op (.reg .a)).getF = 0xC0#8 := by
  have hpack : Flags.pack ⟨true, true, false, false⟩ = 0xC0#8 := by decide
  rw [executeArith_eq, State.fetchOperand, State.getReg, h]
  exact ⟨rfl, hpack⟩

/-- Settles O43: the three forms with the accumulator on both sides. -/
theorem accumulatorAsItsOwnOperand : Obligations.AccumulatorAsItsOwnOperand := by
  intro s
  refine ⟨⟨_, exec_add_adc .addAA s (.inl rfl), add8_self s.a s.flags.c⟩, fun hmode => ?_⟩
  have hsub := exec_of_implements .subAA s (implements_of_symmetric hmode _)
  have hsbc := exec_of_implements .sbcAA s (implements_of_symmetric hmode _)
  refine ⟨⟨_, hsub, executeArith_self_eq_zero (sub8_self s.a s.flags.c)⟩,
    fun hc => ⟨_, hsbc, executeArith_self_eq_zero ?_⟩, fun hc => ⟨_, hsbc, sbc8_self_of_carry s.a hc⟩⟩
  calc sbc8 s.a s.a s.flags.c
      = sub8 s.a s.a false := by rw [hc, (clearCarryMakesNoDifference s.a s.a false).2]
    _ = _ := sub8_self s.a false

end Sys2Proof.Proofs

namespace Sys2Proof.Proofs

open Sys2Proof.Machine Sys2Proof.Statements Sys2Proof.Laws

/-! ## The host port, reset and the bus (spec/10_state.md R32, R44 to R46, spec/20_memory.md R51) -/

theorem flags_get_set_same (x : Flags) (k : FlagName) (v : Bool) : (x.set k v).get k = v := by
  cases k <;> rfl

theorem flags_get_set_ne (x : Flags) {j k : FlagName} (v : Bool) (h : j ≠ k) : (x.set k v).get j = x.get j := by
  revert h
  cases k <;> cases j <;> simp [Flags.get, Flags.set]

/-- Settles O6: a register write has the frame of `setReg`, a flag that of `Flags.set`, and the platform that of its memory. -/
theorem hostWritesItsTargetOnly : Obligations.HostWritesItsTargetOnly := by
  intro s
  refine ⟨fun r v => ⟨_, rfl, State.getReg_setReg_same s r v, fun q => State.getReg_setReg_ne s r q v, ?_⟩,
    fun _ _ => rfl, setF_eq s,
    fun k v => ⟨s.flags.set k v, rfl, flags_get_set_same _ k v, fun _ => flags_get_set_ne _ v⟩,
    fun _ => rfl, fun _ => rfl, rfl,
    fun address v => ⟨_, rfl, fun b => peek_platformWrite s address b v⟩,
    fun address => ⟨_, rfl, peek_platformRelease s address⟩⟩
  simp [State.hostAct, State.hostWrite8]

theorem reset_getReg (r : Reg8) : State.reset.getReg r = 0x00#8 := by
  cases r <;> rfl

theorem reset_getPair (p : Pair) : State.reset.getPair p = 0x0000#16 := by
  cases p <;> decide

/-- Settles O9. -/
theorem resetClearsTheRest : Obligations.ResetClearsTheRest :=
  ⟨reset_getReg, rfl, by decide, reset_getPair, rfl⟩

/-- A reset core's registers are those of the reset state. -/
theorem resetCore_getReg (s : State) (r : Reg8) : s.resetCore.getReg r = 0x00#8 := by
  cases r <;> rfl

/-- Settles O10: the memory and the log stay, so the bus answers as before. -/
theorem hostResetKeepsTheBus : Obligations.HostResetKeepsTheBus :=
  fun s => ⟨resetCore_getReg s, rfl, rfl, rfl, rfl, rfl, rfl, rfl, rfl, fun _ => rfl⟩

theorem busAnswer_of_peek_none {s : State} {address : Word} (h : s.peek address = none) :
    s.busAnswer address = Config.busAnswer s.busLog.length address := by
  rw [State.busAnswer, h, Option.getD_none]

/-- Settles O12: the two halves of the bus. -/
theorem busReadIsOneAccess : Obligations.BusReadIsOneAccess :=
  fun _ _ => ⟨rfl, fun _ => busAnswer_of_peek, busAnswer_of_peek_none⟩

/-- What stands at an address after the core's `write_byte`. -/
theorem peek_memWrite (s : State) (a b : Word) (v : Byte) :
    (s.memWrite a v).peek b = if b = a then some v else s.peek b :=
  peek_platformWrite (s.note (.write a v)) a b v

/-- Settles O13: by what stands at each address after the write. -/
theorem writeByteThenReadByte : Obligations.WriteByteThenReadByte := by
  intro s address v
  refine ⟨busAnswer_of_peek ?_, fun b hb => ?_, rfl, Memory.memWrite_wf s address v⟩
  · rw [peek_memWrite, if_pos rfl]
  · rw [peek_memWrite, if_neg hb]

end Sys2Proof.Proofs

namespace Sys2Proof.Proofs

open Sys2Proof.Machine Sys2Proof.Statements Sys2Proof.Laws

/-! ## What instructions leave, and what they do not read (spec/10_state.md R29, R30) -/

/-- Settles O44: an executed instruction writes `a`, the flags and pc, a fault writes the run state, and the placeholder nothing. -/
theorem instructionFrame : Obligations.InstructionFrame := by
  intro i s t h
  obtain ⟨himp, he⟩ | ⟨op, hop, hmode, _, he⟩ | ⟨himp, _, he⟩ := exec_cases i s <;> (rw [he] at h; cases h)
  · simp [executeArith_eq, State.peek, himp]
  · have hnot : s.params.implements i.op = false := (implements_eq_false s.params i.op).mpr ⟨hmode, op, hop⟩
    simp [State.raiseUnimplemented_eq, State.peek, hnot]
  · simp [himp]

/-- An operand fetch reads neither the flags nor sp. -/
theorem fetchOperand_setFlags_setSp (s : State) (x : Flags) (sp : Word) (t : Target) :
    (({ s with flags := x, sp := sp } : State).fetchOperand t).1 = (s.fetchOperand t).1 := by
  cases t with
  | reg r => cases r <;> rfl
  | hl | d8 => rfl

theorem operandAccesses_setFlags_setSp (s : State) (x : Flags) (sp : Word) (t : Target) :
    operandAccesses { s with flags := x, sp := sp } t = operandAccesses s t := by
  cases t <;> rfl

/-- ADD and SUB do not read the carry (spec/41_add_adc.md R110, spec/42_sub_sbc.md R150). -/
theorem alu_of_carry {op : Op} {cin cin' : Bool} (h : cin' = cin ∨ op = .add ∨ op = .sub) (acc operand : Byte) :
    alu op acc operand cin' = alu op acc operand cin := by
  obtain rfl | rfl | rfl := h <;> rfl

/-- Settles O45: the operand, its accesses and the answer of the arithmetic unit are the same. -/
theorem unreadStateMakesNoDifference : Obligations.UnreadStateMakesNoDifference := by
  intro i s z n h c sp himp hcarry
  refine ⟨_, exec_of_implements i s himp, ?_⟩
  rw [exec_of_implements i { s with flags := ⟨z, n, h, c⟩, sp := sp } himp, executeArith_eq, executeArith_eq,
    fetchOperand_setFlags_setSp, operandAccesses_setFlags_setSp, alu_of_carry hcarry]

/-! ## What a step reads of the bus (spec/20_memory.md R57 to R59) -/

theorem busAnswer_setMem_of_lookup {s : State} {m : Memory} {address : Word} (h : m.lookup address.toNat = s.peek address) :
    (s.setMem m).busAnswer address = s.busAnswer address := by
  rw [State.busAnswer, State.busAnswer, State.peek, State.setMem_mem, h]
  rfl

/-- An operand fetch reads the bus at the addresses of its accesses alone. -/
theorem fetchOperand_setMem {s : State} {m : Memory} {t : Target}
    (h : ∀ address, .read address ∈ operandAccesses s t → m.lookup address.toNat = s.peek address) :
    ((s.setMem m).fetchOperand t).1 = (s.fetchOperand t).1 := by
  cases t with
  | reg r => exact State.getReg_setMem s m r
  | hl => exact busAnswer_setMem_of_lookup (h _ List.mem_cons_self)
  | d8 => exact busAnswer_setMem_of_lookup (h _ List.mem_cons_self)

theorem executeArith_setMem {s : State} {m : Memory} (op : Op) {t : Target}
    (h : ∀ address, .read address ∈ operandAccesses s t → m.lookup address.toNat = s.peek address) :
    (s.setMem m).executeArith op t = (s.executeArith op t).setMem m := by
  have haccesses : operandAccesses (s.setMem m) t = operandAccesses s t := by cases t <;> rfl
  rw [executeArith_eq, executeArith_eq, fetchOperand_setMem h, haccesses]
  rfl

/-- An instruction depends on the memory only at the addresses it reads. -/
theorem exec_setMem {i : Instr} {s : State} {m : Memory}
    (h : ∀ address, .read address ∈ execAccesses i s → m.lookup address.toNat = s.peek address) :
    ∃ t, exec i s = .next t ∧ exec i (s.setMem m) = .next (t.setMem m) := by
  obtain ⟨himp, he⟩ | ⟨op, hop, hmode, hpolicy, he⟩ | ⟨himp, hpolicy, he⟩ := exec_cases i s
  · rw [execAccesses_of_implements himp] at h
    refine ⟨_, he, ?_⟩
    rw [exec_of_implements i (s.setMem m) himp, executeArith_setMem i.op h]
  · exact ⟨_, he, exec_of_fault hop hmode hpolicy⟩
  · exact ⟨_, he, exec_of_placeholder hpolicy himp⟩

/-- Settles O54: the opcode read is the first access, and the others are the instruction's. -/
theorem stepDependsOnTheBytesItReads : Obligations.StepDependsOnTheBytesItReads := by
  intro s m hrun h
  have hopcode : (s.setMem m).busAnswer s.pc = s.busAnswer s.pc := by
    obtain ⟨more, haccesses, _⟩ := stepAccesses_eq_reads s
    exact busAnswer_setMem_of_lookup (h s.pc (haccesses ▸ List.mem_cons_self))
  cases hdecode : decode (s.busAnswer s.pc) with
  | none =>
    refine ⟨_, step_of_decode_none hrun hdecode, ?_⟩
    rw [← hopcode] at hdecode ⊢
    exact step_of_decode_none (s := s.setMem m) hrun hdecode
  | some i =>
    have hreads : ∀ address, .read address ∈ execAccesses i (afterRead s s.pc) → m.lookup address.toNat = s.peek address := by
      intro address haddress
      refine h address ?_
      rw [stepAccesses_of_decode_some hdecode]
      exact List.mem_cons_of_mem _ (execAccesses_fetchOpcode i s ▸ haddress)
    obtain ⟨t, ht, ht'⟩ := exec_setMem hreads
    refine ⟨t, by rw [step_of_decode_some hrun hdecode, ht], ?_⟩
    rw [← hopcode] at hdecode
    exact (step_of_decode_some (s := s.setMem m) hrun hdecode).trans ht'

/-! ## A placed table word (notes/assumptions/5.md) -/

/-- An instruction is decoded from a table word by its first byte. -/
theorem decode_of_decodeTableWord {nbits w : Nat} {i : Instr} (h : decodeTableWord nbits w = some i) :
    decode (tableByte0 nbits w) = some i := by
  unfold decodeTableWord at h
  split at h
  · rename_i x rest hstream
    cases h
    obtain ⟨_, _, hbytes⟩ | ⟨v, _, _, hbytes⟩ := decodeStream_cases hstream
    · rw [(List.cons.inj hbytes).1, decode_opcode]
    · rw [(List.cons.inj hbytes).1, decode_opcode]
  · cases h

theorem nextPc_one_ne (pc : Word) : nextPc pc 1 ≠ pc := by
  rw [nextPc_one]
  bv_omega

/-- The two bytes of a placed instruction stand at pc and at the address after it. -/
theorem peek_placeInstruction (s : State) (x y : Byte) :
    (s.placeInstruction x y).peek s.pc = some x ∧ (s.placeInstruction x y).peek (nextPc s.pc 1) = some y := by
  have hpeek (b : Word) : (s.placeInstruction x y).peek b = if b = nextPc s.pc 1 then some y else (s.platformWrite s.pc x).peek b :=
    peek_platformWrite (s.platformWrite s.pc x) (nextPc s.pc 1) b y
  rw [hpeek, hpeek, if_neg (nextPc_one_ne s.pc).symm, if_pos rfl, peek_platformWrite, if_pos rfl]
  exact ⟨rfl, rfl⟩

/-- Settles O55: the placed bytes are what the bus answers, and the first of them decodes. -/
theorem placedWordIsRun : Obligations.PlacedWordIsRun := by
  intro s nbits w i h
  obtain ⟨hfirst, hsecond⟩ := peek_placeInstruction s (tableByte0 nbits w) (tableByte1 nbits w)
  have hanswer : (s.withFetchWord nbits w).busAnswer s.pc = tableByte0 nbits w := busAnswer_of_peek hfirst
  refine ⟨rfl, hanswer, ?_, step_of_decode_some rfl ?_⟩
  · rw [immAddress_eq]
    exact busAnswer_of_peek hsecond
  · exact (congrArg decode hanswer).trans (decode_of_decodeTableWord h)

end Sys2Proof.Proofs

namespace Sys2Proof.Proofs

open Sys2Proof.Machine Sys2Proof.Statements Sys2Proof.Laws

/-! ## The ports of the five blocks (spec/10_state.md R34, R39, spec/30_encoding.md R79, spec/41_add_adc.md R114) -/

/-- The target code of the decoder's port: the field of format F1, or 8 for D8 (R79). -/
def targetPort : Target → BitVec 4
  | .reg r => targetOfField r.code
  | .hl => targetOfField 0b110#3
  | .d8 => targetD8

/-- The operation code of the decoder's port (R79). -/
def opPort (op : Op) : BitVec 2 :=
  op.code.extractLsb' 0 2

/-- The decoder at its ports answers for an instruction's opcode byte with the codes of its operation and target. -/
theorem decoderOut_opcode (m : SubtractMode) (i : Instr) :
    decoderOut m i.opcode = decoderOutFor m i.opcode (targetPort i.target) ∧ i.opcode.extractLsb' 3 2 = opPort i.op := by
  cases ht : i.target with
  | reg r =>
    obtain ⟨hhigh, hmid, hlow⟩ := fields_encodeF1 i.op r.code
    rw [← opcode_of_targetField (ht ▸ rfl : targetField i.target = some r.code)] at hhigh hmid hlow
    exact ⟨by rw [decoderOut, if_pos hhigh, hlow, targetPort], hmid⟩
  | hl =>
    obtain ⟨hhigh, hmid, hlow⟩ := fields_encodeF1 i.op 0b110#3
    rw [← opcode_of_targetField (ht ▸ rfl : targetField i.target = some 0b110#3)] at hhigh hmid hlow
    exact ⟨by rw [decoderOut, if_pos hhigh, hlow, targetPort], hmid⟩
  | d8 =>
    obtain ⟨hhigh, hmid, hlow⟩ := fields_encodeF2 i.op
    rw [← opcode_of_d8 ht] at hhigh hmid hlow
    exact ⟨by rw [decoderOut, if_neg (by rw [hhigh]; decide), if_pos ⟨hhigh, hlow⟩, targetPort], hmid⟩

/-- A byte that decodes to none gets `valid` 0: it meets neither bit condition. -/
theorem decoderOut_valid_of_decode_none (m : SubtractMode) {opcode : Byte} (h : decode opcode = none) :
    (decoderOut m opcode).valid = 0#1 := by
  have hF1 : opcode.extractLsb' 5 3 ≠ 0b100#3 := fun hF1 => by
    rw [decode_of_fieldsF1 hF1] at h
    cases h
  have hF2 : ¬(opcode.extractLsb' 5 3 = 0b110#3 ∧ opcode.extractLsb' 0 3 = 0b110#3) := fun ⟨hhigh, hlow⟩ => by
    rw [decode_of_fieldsF2 hhigh hlow] at h
    cases h
  rw [decoderOut, if_neg hF1, if_neg hF2]

/-- `implemented` says whether the build has execution logic for the operation. -/
theorem implementedOf_opPort (p : Params) (op : Op) :
    implementedOf p.subtractMode (opPort op) = 0#1 ↔ p.implements op = false := by
  obtain ⟨m, policy⟩ := p
  cases m <;> cases op <;> simp [implementedOf, opPort, Op.code, Params.implements]

/-- The register select reads the register that its code names. -/
theorem rdData_code (s : State) (r : Reg8) : s.rdData r.code = some (s.getReg r) := by
  cases r <;> rfl

/-- The operand at its port is that of the target, after the same bus read. -/
theorem operandPort_decoderOutFor (s : State) (m : SubtractMode) (opcode : Byte) (t : Target) :
    s.operandPort (decoderOutFor m opcode (targetPort t)) = some (s.fetchOperand t) := by
  cases t with
  | reg r => cases r <;> rfl
  | hl | d8 => rfl

/-- `len` is the length of the target (R70). -/
theorem len_decoderOutFor (m : SubtractMode) (opcode : Byte) (t : Target) :
    (decoderOutFor m opcode (targetPort t)).len.zeroExtend 16 = BitVec.ofNat 16 t.length := by
  cases t with
  | reg r => cases r <;> rfl
  | hl | d8 => rfl

theorem ofPort_toPort (x : Flags) : Flags.ofPort x.toPort = x := by
  obtain ⟨z, n, h, c⟩ := x
  cases z <;> cases n <;> cases h <;> cases c <;> rfl

/-- The carry is bit 0 of the flag port. -/
theorem toPort_getLsbD_zero (x : Flags) : x.toPort.getLsbD 0 = x.c :=
  congrArg Flags.c (ofPort_toPort x)

theorem aluPorts_opPort (op : Op) (acc operand : Byte) (cin : Bool) :
    aluPorts (opPort op) acc operand cin = ((alu op acc operand cin).res, (alu op acc operand cin).flags.toPort) := by
  cases op <;> rfl

theorem writeBackPorts_toPort (s : State) (r : AluOut) : s.writeBackPorts 1#1 r.res r.flags.toPort = s.writeBack r := by
  rw [State.writeBackPorts, if_pos rfl, ofPort_toPort]
  rfl

theorem subOpOfCode_opPort (op : SubOp) : subOpOfCode (opPort op.toOp) = some op := by
  cases op <;> rfl

/-- The part of the datapath after the implementation check is the course of an executed instruction. -/
theorem datapathExecute_opcode (s : State) (m : SubtractMode) (i : Instr) :
    s.datapathExecute (decoderOut m i.opcode) = some (s.executeArith i.op i.target) := by
  obtain ⟨hout, hop⟩ := decoderOut_opcode m i
  have hopPort : (decoderOutFor m i.opcode (targetPort i.target)).op = opPort i.op := hop
  simp only [State.datapathExecute, hout, operandPort_decoderOutFor, hopPort, toPort_getLsbD_zero, aluPorts_opPort,
    writeBackPorts_toPort, State.commitPort, len_decoderOutFor]
  rfl

/-! ## The step through the ports (decision D13) -/

theorem datapathStep_of_decode_none {s : State} (hdecode : decode (s.busAnswer s.pc) = none) :
    s.datapathStep = some (faultedState s ⟨1#8, s.busAnswer s.pc, s.pc, none⟩) := by
  simp only [State.datapathStep, decoderOut_valid_of_decode_none _ hdecode, if_true]
  rfl

section
variable {s : State} {i : Instr}

/-- What the datapath asks of the decoder's outputs before it executes. -/
theorem decoderOut_of_decode_some (m : SubtractMode) {opcode : Byte} (hdecode : decode opcode = some i) :
    (decoderOut m opcode).valid = 1#1 ∧ (decoderOut m opcode).implemented = implementedOf m (opPort i.op) ∧
      (decoderOut m opcode).op = opPort i.op := by
  obtain rfl := opcode_of_decode opcode i hdecode
  obtain ⟨hout, hop⟩ := decoderOut_opcode m i
  rw [hout, ← hop]
  exact ⟨rfl, rfl, rfl⟩

variable (hdecode : decode (s.busAnswer s.pc) = some i)
include hdecode

theorem datapathStep_of_implements (himp : s.params.implements i.op = true) :
    s.datapathStep = some ((afterRead s s.pc).executeArith i.op i.target) := by
  obtain ⟨hvalid, himplemented, _⟩ := decoderOut_of_decode_some s.params.subtractMode hdecode
  have hport : (decoderOut s.params.subtractMode (s.busAnswer s.pc)).implemented ≠ 0#1 := by
    rw [himplemented, Ne, implementedOf_opPort, himp]
    exact Bool.noConfusion
  rw [State.datapathStep, if_neg (by rw [hvalid]; decide), if_neg hport, opcode_of_decode _ i hdecode]
  exact datapathExecute_opcode _ _ i

theorem datapathStep_of_fault {op : SubOp} (hop : i.op = op.toOp) (hmode : s.params.subtractMode = .unimplemented)
    (hpolicy : s.params.unimplementedPolicy = .fault) :
    s.datapathStep = some (faultedState s ⟨2#8, s.busAnswer s.pc, s.pc, some op⟩) := by
  obtain ⟨hvalid, himplemented, hopPort⟩ := decoderOut_of_decode_some s.params.subtractMode hdecode
  have himp : s.params.implements i.op = false := (implements_eq_false s.params i.op).mpr ⟨hmode, op, hop⟩
  rw [State.datapathStep, if_neg (by rw [hvalid]; decide),
    if_pos (himplemented.trans ((implementedOf_opPort s.params i.op).mpr himp)), hpolicy, hopPort, hop, subOpOfCode_opPort]
  rfl

theorem datapathStep_of_placeholder (himp : s.params.implements i.op = false)
    (hpolicy : s.params.unimplementedPolicy = .placeholder) : s.datapathStep = some (afterRead s s.pc) := by
  obtain ⟨hvalid, himplemented, _⟩ := decoderOut_of_decode_some s.params.subtractMode hdecode
  rw [State.datapathStep, if_neg (by rw [hvalid]; decide),
    if_pos (himplemented.trans ((implementedOf_opPort s.params i.op).mpr himp)), hpolicy]
  rfl

end

/-- Settles O53: each of the four steps is the one that the ports take. -/
theorem stepRefinesTheDatapath : Obligations.StepRefinesTheDatapath := by
  intro s hrun
  cases hdecode : decode (s.busAnswer s.pc) with
  | none => exact ⟨_, datapathStep_of_decode_none hdecode, step_of_decode_none hrun hdecode⟩
  | some i =>
    obtain ⟨himp, he⟩ | ⟨op, hop, hmode, hpolicy, _⟩ | ⟨himp, hpolicy, _⟩ := exec_cases i (afterRead s s.pc)
    · exact ⟨_, datapathStep_of_implements hdecode himp, (step_of_decode_some hrun hdecode).trans he⟩
    · exact ⟨_, datapathStep_of_fault hdecode hop hmode hpolicy, step_of_fault hrun hdecode hop hmode hpolicy⟩
    · exact ⟨_, datapathStep_of_placeholder hdecode himp hpolicy, step_of_placeholder hrun hpolicy himp hdecode⟩

end Sys2Proof.Proofs
